-- ==== Sys2Proof/Word.lean ====
section
/-! DEFINITION. The word types of the machine (00_scope.md R8, R12): a 32-bit word, a byte, and the
5-bit register index that a field of an instruction word holds (30_encoding.md R93, R94). -/

namespace Sys2Proof

/-- A register value, an address, an instruction word: `XLEN = ILEN = 32` bits (R8). -/
abbrev Word := BitVec 32

/-- One byte of memory (20_memory.md R50). -/
abbrev Byte := BitVec 8

/-- A register index as the decoder presents it: 5 bits, so always in `0..31` (R93, R94). -/
abbrev RegIdx := BitVec 5

end Sys2Proof
end

