-- ==== Sys2Proof/Syntax.lean ====
section
/-! DEFINITION. The decoded instruction (30_encoding.md R98, R99): the six kinds of
43_unrecognized.md R194, one constructor per row of spec/opcode_table.json. -/

namespace Sys2Proof

/-- The descriptor of R99. The register kinds carry `rs`, `rt` and the unused `rd`; the memory kinds
carry `rs`, `rt` and the immediate already sign-extended to 32 bits; `unrecognized` carries nothing
(DESIGN CHOICE of the spec, D16, log 13: safe). -/
inductive Instr where
  /-- `ADD rt, rs` (R150). -/
  | add (rs rt rd : RegIdx)
  /-- `SUB rt, rs` (R155). -/
  | sub (rs rt rd : RegIdx)
  /-- `XOR rt, rs` (R160). -/
  | xor (rs rt rd : RegIdx)
  /-- `LW rt, imm(rs)` (R170). -/
  | lw (rs rt : RegIdx) (imm : Word)
  /-- `SW rt, imm(rs)` (R175). -/
  | sw (rs rt : RegIdx) (imm : Word)
  /-- Any other word (R190). -/
  | unrecognized
deriving DecidableEq, Repr

end Sys2Proof
end

