-- ==== Sys2Proof/WellFormed.lean ====
section
/-! DEFINITION. Which descriptors the decoder can answer (30_encoding.md R97, R114): every register
operand is legal in every form, and an immediate is the sign extension of 16 bits. -/

namespace Sys2Proof

/-- The 32-bit patterns `sext_32` gives (R97): `0x00000000 … 0x00007FFF` and
`0xFFFF8000 … 0xFFFFFFFF`. -/
def immediateOk (imm : Word) : Bool :=
  decide (imm.toNat < 0x8000) || decide (0xFFFF8000 ≤ imm.toNat)

/-- A descriptor whose operands an instruction word can hold. -/
def Instr.wf : Instr → Bool
  | .add _ _ _ => true
  | .sub _ _ _ => true
  | .xor _ _ _ => true
  | .lw _ _ imm => immediateOk imm
  | .sw _ _ imm => immediateOk imm
  | .unrecognized => true

end Sys2Proof
end

