-- ==== Sys2Proof/Decode.lean ====
section
/-! DEFINITION. The instruction decoder DEC (30_encoding.md): fields, byte order, the total decoder
from words and from bytes, its flat port view, and the encoder written from the same tables. -/

namespace Sys2Proof

/-- `opcode = w[31:26]` (R93). -/
def opcodeOf (w : Word) : BitVec 6 := w.extractLsb' 26 6

/-- `rs = w[25:21]` (R93). -/
def rsOf (w : Word) : RegIdx := w.extractLsb' 21 5

/-- `rt = w[20:16]` (R94). -/
def rtOf (w : Word) : RegIdx := w.extractLsb' 16 5

/-- `rd = w[15:11]` (R95). -/
def rdOf (w : Word) : RegIdx := w.extractLsb' 11 5

/-- `funct = w[5:0]` (R96). -/
def functOf (w : Word) : BitVec 6 := w.extractLsb' 0 6

/-- `imm16 = w[15:0]` (R97). -/
def imm16Of (w : Word) : BitVec 16 := w.extractLsb' 0 16

/-- `sext_32` of a 16-bit field (00_scope.md R12). -/
def sext32 (v : BitVec 16) : Word := v.signExtend 32

/-- `decode` (R100): defined for every word. -/
def decode (w : Word) : Instr :=
  if opcodeOf w = 0 then
    if functOf w = 32 then .add (rsOf w) (rtOf w) (rdOf w)
    else if functOf w = 34 then .sub (rsOf w) (rtOf w) (rdOf w)
    else if functOf w = 38 then .xor (rsOf w) (rtOf w) (rdOf w)
    else .unrecognized
  else if opcodeOf w = 35 then .lw (rsOf w) (rtOf w) (sext32 (imm16Of w))
  else if opcodeOf w = 43 then .sw (rsOf w) (rtOf w) (sext32 (imm16Of w))
  else .unrecognized

/-- Byte `k` of a word, byte 0 the least significant (20_memory.md R59). -/
def byteOf (w : Word) (k : Nat) : Byte := w.extractLsb' (8 * k) 8

/-- Four bytes, the one at the lowest address first, as a little-endian word (20_memory.md R58, R63). -/
def wordOf (b0 b1 b2 b3 : Byte) : Word := b3 ++ b2 ++ b1 ++ b0

/-- The four bytes of a word as they lie in memory, lowest address first (R63, R90). -/
def wordBytes (w : Word) : List Byte := [byteOf w 0, byteOf w 1, byteOf w 2, byteOf w 3]

/-- Why a byte sequence holds no instruction: every instruction is four bytes (R90). -/
inductive DecodeError where
  /-- Fewer than four bytes are left. -/
  | truncated
deriving DecidableEq, Repr

/-- The first instruction of a byte sequence and the bytes after it (R90). -/
def decodeBytes : List Byte → Except DecodeError (Instr × List Byte)
  | b0 :: b1 :: b2 :: b3 :: rest => .ok (decode (wordOf b0 b1 b2 b3), rest)
  | _ => .error .truncated

/-- What the decoder reads from an instruction whose bits are `w`, bit 0 the least significant bit
of the word; the bits from `nbits` up are zero. -/
def decodeTableWord (nbits w : Nat) : Option Instr :=
  match decodeBytes (wordBytes (BitVec.ofNat 32 (w % 2 ^ nbits))) with
  | .ok (i, _) => some i
  | .error _ => none

/-- A register-form word: opcode 0, bits 10:6 zero, the canonical choice of R115. -/
def registerWord (rs rt rd : RegIdx) (funct : BitVec 6) : Word :=
  (0 : BitVec 6) ++ rs ++ rt ++ rd ++ (0 : BitVec 5) ++ funct

/-- A memory-form word (R92): the immediate's low 16 bits stand in `imm16`. -/
def memoryWord (opcode : BitVec 6) (rs rt : RegIdx) (imm : Word) : Word :=
  opcode ++ rs ++ rt ++ imm.extractLsb' 0 16

/-- The encoder (R91, R92, R115). DESIGN CHOICE (log 16, safe): bits 10:6 are zero, and
`unrecognized`, which many words decode to, is written as the all-zero word (R108). -/
def encode : Instr → Word
  | .add rs rt rd => registerWord rs rt rd 32
  | .sub rs rt rd => registerWord rs rt rd 34
  | .xor rs rt rd => registerWord rs rt rd 38
  | .lw rs rt imm => memoryWord 35 rs rt imm
  | .sw rs rt imm => memoryWord 43 rs rt imm
  | .unrecognized => 0

/-- The enumeration on DEC's `kind` output (R113); the spec fixes no binary code for it. -/
inductive Kind where
  | add | sub | xor | lw | sw | unrecognized
deriving DecidableEq, Repr

/-- The kind of a descriptor (R98). -/
def Instr.kind : Instr → Kind
  | .add _ _ _ => .add
  | .sub _ _ _ => .sub
  | .xor _ _ _ => .xor
  | .lw _ _ _ => .lw
  | .sw _ _ _ => .sw
  | .unrecognized => .unrecognized

/-- The output signals of DEC as a block (R113). -/
structure DecodePorts where
  kind : Kind
  rs : RegIdx
  rt : RegIdx
  rd : RegIdx
  imm : Word
deriving DecidableEq, Repr

/-- The flat view of R113: the four field outputs are slices of the input, driven for every word. -/
def decodePorts (w : Word) : DecodePorts where
  kind := (decode w).kind
  rs := rsOf w
  rt := rtOf w
  rd := rdOf w
  imm := sext32 (imm16Of w)

end Sys2Proof
end

