-- ==== Sys2Proof/Config.lean ====
section
/-! DEFINITION. What is fixed for one machine: the constants of 00_scope.md R8 and the named
parameters of R9, with the constraints of 20_memory.md R51. The spec leaves no value open
(40_execution_cycle.md R139), so there is no free value here. -/

namespace Sys2Proof

/-- Number of general registers (R8). -/
def Config.nregs : Nat := 32

/-- Bytes per word, and the program counter's increment (R8). -/
def Config.wordBytes : Nat := 4

/-- `DATA_BASE`: first byte address of the data region (R8). -/
def Config.dataBase : Nat := 0x00000000

/-- `DATA_SIZE`: bytes of the data region (R8). -/
def Config.dataSize : Nat := 0x00000100

/-- The first byte address the address space does not have: `2^XLEN` (R8, R51). -/
def Config.addressLimit : Nat := 0x100000000

/-- The named parameters the spec's model takes as arguments (R9, 10_state.md R37). They do not
change while cycles run. DESIGN CHOICE (log 1, safe for statements, which hold for every
parameter): they ride in `State`, because the host fixes the type of `step`. -/
structure Params where
  /-- `INSTR_BASE`: first byte address of the instruction region. -/
  instrBase : Word
  /-- `INSTR_SIZE`: bytes of the instruction region. -/
  instrSize : Nat
  /-- `LAST`: the end marker the host sets at load (10_state.md R30). -/
  last : Word
  /-- `SKIP_UNSUPPORTED`: the host's policy (60_exceptions.md R214). -/
  skipUnsupported : Bool
deriving DecidableEq, Repr

/-- The constraints on the regions (R9, 20_memory.md R51): multiples of 4, sizes positive, each
region ends at or below `2^32`, the two are disjoint. -/
abbrev Params.WellFormed (p : Params) : Prop :=
  p.instrBase.toNat % 4 = 0 ∧ p.instrSize % 4 = 0 ∧ 0 < p.instrSize ∧
  p.instrBase.toNat + p.instrSize ≤ Config.addressLimit ∧
  (Config.dataBase + Config.dataSize ≤ p.instrBase.toNat ∨
    p.instrBase.toNat + p.instrSize ≤ Config.dataBase)

/-- The spec's defaults (R9) with the end marker of the empty program (10_state.md R38).
DESIGN CHOICE (log 1): the source gives no value; unsafe for a claim about `State.reset` alone. -/
def Config.defaultParams : Params where
  instrBase := 0x100
  instrSize := 0x100
  last := 0x100
  skipUnsupported := false

/-- A region: a contiguous range of byte addresses (20_memory.md R50). -/
structure Region where
  start : Nat
  size : Nat
deriving DecidableEq, Repr

/-- The data region (R51). -/
def Config.dataRegion : Region := ⟨Config.dataBase, Config.dataSize⟩

/-- The instruction region (R51). -/
def Params.instrRegion (p : Params) : Region := ⟨p.instrBase.toNat, p.instrSize⟩

/-- Exactly two regions exist (R51, `NREGIONS = 2`). -/
def Params.regions (p : Params) : List Region := [Config.dataRegion, p.instrRegion]

end Sys2Proof
end

