-- ==== Sys2Proof/Machine/State.lean ====
section
/-! DEFINITION. The machine's state (10_state.md R37), the reasons a step stops, and the state after
reset (10_state.md R38, 70_reset_and_hazards.md R230). -/

namespace Sys2Proof.Machine

/-- The bytes of both regions as one list of (address, byte) cells. The regions are disjoint
(20_memory.md R51), so one list keyed by address holds R37's `dmem` and `imem` both
(DESIGN CHOICE, log 14: safe). -/
abbrev Memory := List Host.Cell

/-- What a byte that nothing has written reads as: regions are zero-filled by `init()`
(20_memory.md R56, R68 (b)). -/
def Memory.unlisted : Byte := 0x00

/-- The canonical form: addresses strictly rising, no cell that says what an unlisted address reads
as. Equal memories are then equal lists. -/
abbrev Memory.wf (m : Memory) : Prop :=
  m.Pairwise (fun c d => c.1 < d.1) ∧ ∀ c ∈ m, c.2 ≠ Memory.unlisted

/-- The complete state of R37, with its parameters. There is no flag, control register or other
hidden state (R32 to R35). -/
structure State where
  /-- `x[0] … x[31]` (R20); register 0 is ordinary (R22). -/
  regs : Vector Word 32
  /-- The program counter (R27). -/
  pc : Word
  /-- The data region's and the instruction region's bytes (R36). -/
  mem : Memory
  /-- The parameters of R37, which no step changes (00_scope.md R9). -/
  params : Params
deriving DecidableEq, Repr

/-- The closed taxonomy of errors (60_exceptions.md R200), each with the information the spec
records (DESIGN CHOICE of the spec, D13, log 15: safe). An error ends the cycle with the state
unchanged (R205). -/
inductive Fault where
  /-- A word access at this address is not inside one region (R201). Raised by the fetch, LW, SW and
  the host's accesses. Safe: the spec itself ends the cycle here. -/
  | outOfRange (a : Word)
  /-- A register index outside `0..31` (R202). Raised by the host's register access only; no step
  raises it. Safe: the spec itself says so. -/
  | invalidRegister (i : Nat)
  /-- The word fetched is none of the five instructions (R203). Raised by UNRECOGNIZED. Safe: the
  spec itself ends the cycle here. -/
  | unsupportedInstruction (w : Word)
deriving DecidableEq, Repr

/-- Why a step has no meaning. -/
inductive Refusal where
  /-- Raised by an arm of `exec` whose instruction has no meaning yet; no arm of this model does.
  Safe: nothing can be proved of a next state. -/
  | notModelled (mnemonic : String)
deriving DecidableEq, Repr

/-- The state after reset of a machine with parameters `p` (R38): memory zero-filled, `pc` at
`INSTR_BASE`. DESIGN CHOICE (log 2, unsafe): every register is 0, the spec's decision D4; the source
gives the registers no reset value. -/
def State.resetWith (p : Params) : State where
  regs := Vector.replicate 32 0
  pc := p.instrBase
  mem := []
  params := p

/-- The machine right after reset (R38), with the spec's default parameters (R9, log 1). -/
def State.reset : State := State.resetWith Config.defaultParams

end Sys2Proof.Machine
end

