-- ==== Sys2Proof/Machine/Ops.lean ====
section
/-! DEFINITION. The named operations every instruction is written with: register access
(10_state.md R23, R26), region lookup and admission (20_memory.md R53, R57), the byte store, MemRead
and MemWrite (R58, R59), the fetch (40_execution_cycle.md R131), the advance of the program counter
(R137), and raising an error (60_exceptions.md R205). -/

namespace Sys2Proof.Machine

/-- What one cycle answers. -/
abbrev Result := Host.Outcome State Fault Refusal

/-- `raise` (R205): the cycle ends at once with the error, and no state is written. The hardware
saves nothing and enters no handler (R208), so there is no next state and no return (R211). -/
def raise (e : Fault) : Result := .fault e

/-- `x[i]` of the current state (10_state.md R20, R23). -/
def getReg (s : State) (i : RegIdx) : Word := s.regs[i.toNat]'(i.isLt)

/-- `x[i] <- v` (R26). Register 0 has no special treatment (R22). -/
def setReg (s : State) (i : RegIdx) (v : Word) : State :=
  { s with regs := s.regs.set i.toNat v i.isLt }

/-- The advance of R137: `pc <- trunc_32(pc + 4)`. DESIGN CHOICE of the spec (D9, log 8, unsafe): it
wraps. -/
def advancePc (s : State) : State := { s with pc := s.pc + 4 }

/-- Range containment of one byte address (20_memory.md R53), on integers. -/
def regionContains (r : Region) (a : Nat) : Bool :=
  decide (r.start ≤ a) && decide (a < r.start + r.size)

/-- All four bytes of a word access lie in the region (R57), computed without wrap-around. -/
def regionAdmits (r : Region) (a : Nat) : Bool :=
  decide (r.start ≤ a) && decide (a + 4 ≤ r.start + r.size)

/-- The byte at this address exists: some region contains it (R52, R53). -/
def byteExists (p : Params) (a : Nat) : Bool :=
  p.regions.any (fun r => regionContains r a)

/-- Admission of a word access (R57): one region contains all four bytes. DESIGN CHOICE of the spec
(D6, log 7: safe): the three highest addresses of a region are not admitted. DESIGN CHOICE (D5,
log 6: unsafe): no alignment is asked for. -/
def admitted (p : Params) (a : Word) : Bool :=
  p.regions.any (fun r => regionAdmits r a.toNat)

/-- `mem[a]` (R52). -/
def readByte : Memory → Nat → Byte
  | [], _ => Memory.unlisted
  | (k, b) :: m, a => if a = k then b else readByte m a

/-- The memory with a cell put before the first higher address. -/
def insertCell : Memory → Nat → Byte → Memory
  | [], a, v => [(a, v)]
  | (k, b) :: m, a, v => if a < k then (a, v) :: (k, b) :: m else (k, b) :: insertCell m a v

/-- `mem[a] <- v`, keeping the canonical form: the cell of `a` goes, and a new one is put in unless `v`
is what an unlisted byte reads as. -/
def writeByte (m : Memory) (a : Nat) (v : Byte) : Memory :=
  let others := m.filter (fun c => decide (c.1 ≠ a))
  if v = Memory.unlisted then others else insertCell others a v

/-- The little-endian word at a byte address (R58). -/
def readWord (m : Memory) (a : Nat) : Word :=
  wordOf (readByte m a) (readByte m (a + 1)) (readByte m (a + 2)) (readByte m (a + 3))

/-- The four byte writes of R59, little-endian. -/
def writeWord (m : Memory) (a : Nat) (v : Word) : Memory :=
  writeByte (writeByte (writeByte (writeByte m a (byteOf v 0)) (a + 1) (byteOf v 1))
    (a + 2) (byteOf v 2)) (a + 3) (byteOf v 3)

/-- `MemRead(a, 4)` (R58). An access that is not admitted is an error, never the value 0 (R60). After
`memWrite` it obeys the read-after-write laws of R62. -/
def memRead (s : State) (a : Word) : Except Fault Word :=
  if admitted s.params a then .ok (readWord s.mem a.toNat) else .error (.outOfRange a)

/-- `MemWrite(a, 4, v)` (R59): all four bytes, or none and an error (R66). The laws of R62 are laws of
this operation with `memRead` and `readByte`. -/
def memWrite (s : State) (a : Word) (v : Word) : Except Fault State :=
  if admitted s.params a then .ok { s with mem := writeWord s.mem a.toNat v }
  else .error (.outOfRange a)

/-- The fetch of R131: the ordinary read at `pc`, not confined to the instruction region
(DESIGN CHOICE of the spec, D14, log 11: unsafe). -/
def fetch (s : State) : Except Fault Word := memRead s s.pc

/-- Put a word where the next fetch reads it, moving `pc` to `INSTR_BASE` only where the fetch at
`pc` would not be admitted (log 17). -/
def placeWord (s : State) (v : Word) : State :=
  let at_ := if admitted s.params s.pc then s.pc else s.params.instrBase
  { s with pc := at_, mem := writeWord s.mem at_.toNat v }

end Sys2Proof.Machine
end

