-- ==== Sys2Proof/Machine/Operands.lean ====
section
/-! DEFINITION. The operand forms: the register form's two operands and its ALU
(40_execution_cycle.md R133, R141; 41_arith_logic.md R145), and the one addressing mode of the memory
form (42_load_store.md R171). -/

namespace Sys2Proof.Machine

/-- The three operations of the arithmetic-logic unit (R141). -/
inductive AluOp where
  | add | sub | xor
deriving DecidableEq, Repr

/-- The ALU (R141, R165): 32-bit wrapping sum and difference and bitwise exclusive or; no flag, no
trap (R151, R156, R161). -/
def alu : AluOp → Word → Word → Word
  | .add, a, b => a + b
  | .sub, a, b => a - b
  | .xor, a, b => a ^^^ b

/-- The result of a register-form instruction: `x[rs] op x[rt]`, both read at cycle start (R133);
`rs` is the first operand and the minuend (R145, R155). DESIGN CHOICE of the spec (D1, log 4,
unsafe): `rt` is second source and destination. -/
def registerResult (op : AluOp) (rs rt : RegIdx) (s : State) : Word :=
  alu op (getReg s rs) (getReg s rt)

/-- The effective address of LW and SW (R171): base plus displacement, wrapping (DESIGN CHOICE of the
spec, D9, log 8: unsafe). -/
def effectiveAddress (s : State) (rs : RegIdx) (imm : Word) : Word := getReg s rs + imm

end Sys2Proof.Machine
end

