-- ==== Sys2Proof/Machine/MemoryForm.lean ====
section
/-! DEFINITION. The memory-form instructions LW and SW (42_load_store.md). -/

namespace Sys2Proof.Machine

/-- LW (R170): the word at the effective address, or `OutOfRange` with nothing written (R172). -/
def execLw (rs rt : RegIdx) (imm : Word) (s : State) : Result :=
  match memRead s (effectiveAddress s rs imm) with
  | .ok v => .next (advancePc (setReg s rt v))
  | .error e => raise e

/-- SW (R175): `x[rt]` to the word at the effective address, or `OutOfRange` with nothing written
(R177). -/
def execSw (rs rt : RegIdx) (imm : Word) (s : State) : Result :=
  match memWrite s (effectiveAddress s rs imm) (getReg s rt) with
  | .ok t => .next (advancePc t)
  | .error e => raise e

end Sys2Proof.Machine
end

