-- ==== Sys2Proof/Machine/RegisterForm.lean ====
section
/-! DEFINITION. The register-form instructions ADD, SUB and XOR (41_arith_logic.md). -/

namespace Sys2Proof.Machine

/-- What the three share (R145, R147): one result of the two sources, written to `x[rt]`, and the pc
advance, committed together (40_execution_cycle.md R136). They cannot fail (R146). -/
def execRegisterForm (op : AluOp) (rs rt : RegIdx) (s : State) : Result :=
  .next (advancePc (setReg s rt (registerResult op rs rt s)))

/-- ADD (R150): `x[rt] <- trunc_32(x[rs] + x[rt])`. -/
def execAdd (rs rt _rd : RegIdx) (s : State) : Result := execRegisterForm .add rs rt s

/-- SUB (R155): `x[rt] <- trunc_32(x[rs] - x[rt])`. -/
def execSub (rs rt _rd : RegIdx) (s : State) : Result := execRegisterForm .sub rs rt s

/-- XOR (R160): `x[rt] <- x[rs] ^ x[rt]`. -/
def execXor (rs rt _rd : RegIdx) (s : State) : Result := execRegisterForm .xor rs rt s

end Sys2Proof.Machine
end

