-- ==== Sys2Proof/Machine/Unrecognized.lean ====
section
/-! DEFINITION. The execution of a word that is none of the five instructions
(43_unrecognized.md R190). -/

namespace Sys2Proof.Machine

/-- UNRECOGNIZED (R190): `raise UnsupportedInstruction(w)`, always, where `w` is the fetched word. The
descriptor does not carry `w` (30_encoding.md R99), so it is read again where the fetch read it; no
write lies between, so it is the same word. Where nothing could be fetched at `pc` (no cycle executes
anything there) the fetch's own error is raised (DEDUCED, log 15: safe). -/
def execUnrecognized (s : State) : Result :=
  match fetch s with
  | .ok w => raise (.unsupportedInstruction w)
  | .error e => raise e

end Sys2Proof.Machine
end

