-- ==== Sys2Proof/Machine/Step.lean ====
section
/-! DEFINITION. One cycle of the machine (40_execution_cycle.md R130): fetch, decode, execute, commit
with the pc advance. -/

namespace Sys2Proof.Machine

/-- `Cycle` (R130): a step is a cycle, and a cycle executes exactly one instruction. The end-of-run
test and the policy after an error are the host's (70_reset_and_hazards.md R237) and stand in
`run`. -/
def step (s : State) : Host.Outcome State Fault Refusal :=
  match fetch s with
  | .ok w => exec (decode w) s
  | .error e => raise e

/-- `s` with the instruction whose bits are `w` lying where the next fetch reads it: what the host's
load of one word does (70_reset_and_hazards.md R234, log 17). -/
def State.withFetchWord (s : State) (nbits w : Nat) : State :=
  placeWord s (BitVec.ofNat 32 (w % 2 ^ nbits))

end Sys2Proof.Machine
end

