-- ==== Sys2Proof/Machine/Datapath.lean ====
section
/-! DEFINITION. The blocks of the datapath seen as signals of one cycle (40_execution_cycle.md R140 to
R142). The register file's signal names are the spec's own (D11, log 22); those of the data port, and
what an idle port carries, are the model's (log 24). No step reads any of them. -/

namespace Sys2Proof.Machine

/-- The register file's two read ports and one write port (R140). -/
structure RegPorts where
  ra : RegIdx
  rda : Word
  rb : RegIdx
  rdb : Word
  we : Bool
  wa : RegIdx
  wd : Word
deriving DecidableEq, Repr

/-- The memory's data port (R142): at most one access a cycle, a read for LW, a write for SW. DESIGN
CHOICE (log 24): R142 gives the accesses and no signals, so the four signals are the model's. -/
structure DataPort where
  read : Bool
  write : Bool
  addr : Word
  wdata : Word
deriving DecidableEq, Repr

/-- What stands on the register file's write data when the fetched word is `w`. R140 gives `wd` a meaning
only with `we = 1`. DESIGN CHOICE (log 24, unsafe for a claim about `wd` with `we = 0`): without it the
model drives 0 for SW and UNRECOGNIZED, and for an LW that is not admitted what the memory list reads at
its address; `commitReg` then uses none of it. -/
def writeBackData (w : Word) (s : State) : Word :=
  match (decode w).kind with
  | .add => registerResult .add (rsOf w) (rtOf w) s
  | .sub => registerResult .sub (rsOf w) (rtOf w) s
  | .xor => registerResult .xor (rsOf w) (rtOf w) s
  | .lw => readWord s.mem (effectiveAddress s (rsOf w) (sext32 (imm16Of w))).toNat
  | .sw => 0
  | .unrecognized => 0

/-- `we = 1` exactly for a successful ADD, SUB, XOR or LW (R140). -/
def writeEnable (w : Word) (s : State) : Bool :=
  match (decode w).kind with
  | .add => true
  | .sub => true
  | .xor => true
  | .lw => admitted s.params (effectiveAddress s (rsOf w) (sext32 (imm16Of w)))
  | .sw => false
  | .unrecognized => false

/-- The register file's ports in a cycle that fetched `w` (R140). -/
def regPorts (w : Word) (s : State) : RegPorts where
  ra := rsOf w
  rda := getReg s (rsOf w)
  rb := rtOf w
  rdb := getReg s (rtOf w)
  we := writeEnable w s
  wa := rtOf w
  wd := writeBackData w s

/-- The data port in a cycle that fetched `w` (R142); an access that is not admitted enables nothing
(20_memory.md R66). DESIGN CHOICE (log 24, unsafe for a claim about an idle data port): `addr` and `wdata`
carry the effective address of the word's fields and `x[rt]` in every cycle, also where no data access
happens. -/
def dataPort (w : Word) (s : State) : DataPort where
  read := decide ((decode w).kind = .lw) &&
    admitted s.params (effectiveAddress s (rsOf w) (sext32 (imm16Of w)))
  write := decide ((decode w).kind = .sw) &&
    admitted s.params (effectiveAddress s (rsOf w) (sext32 (imm16Of w)))
  addr := effectiveAddress s (rsOf w) (sext32 (imm16Of w))
  wdata := getReg s (rtOf w)

/-- What the write port does to the state at commit (R140). -/
def commitReg (ports : RegPorts) (s : State) : State :=
  if ports.we then setReg s ports.wa ports.wd else s

/-- What the data port does to the state at commit (R142). -/
def commitData (port : DataPort) (s : State) : State :=
  if port.write then { s with mem := writeWord s.mem port.addr.toNat port.wdata } else s

end Sys2Proof.Machine
end

