-- ==== Sys2Proof/Machine/TwoBuffers.lean ====
section
/-! DEFINITION. The spec's own picture of the machine, for a refinement statement: the state of
10_state.md R37 with its TWO byte buffers, each indexed from 0 (20_memory.md R52), and the cycle of
40_execution_cycle.md R130 in the arithmetic of 00_scope.md R12 (mathematical integers, reduced modulo
2^32). `step` is the machine; this is what it is compared with. -/

namespace Sys2Proof.Machine

/-- R37's state. A value is a natural number below `2^32`, a byte one below 256 (R12, R20). -/
structure SpecState where
  x : Nat → Nat
  pc : Nat
  dmem : Nat → Nat
  imem : Nat → Nat

/-- What a cycle answers in R130: `Ok(S')`, or `Error(E, info)` with the state unchanged. -/
inductive SpecOutcome where
  | ok (s : SpecState)
  | error (e : Fault)

/-- `s <= a` and `a + 4 <= s + z` (20_memory.md R57). -/
abbrev specInside (start size a : Nat) : Prop := start ≤ a ∧ a + 4 ≤ start + size

/-- The little-endian value of four bytes of a buffer (20_memory.md R58). -/
def specWord (buffer : Nat → Nat) (k : Nat) : Nat :=
  buffer k + buffer (k + 1) * 2 ^ 8 + buffer (k + 2) * 2 ^ 16 + buffer (k + 3) * 2 ^ 24

/-- A buffer after four bytes of `v` are stored from index `k` (R59). -/
def specStore (buffer : Nat → Nat) (k v : Nat) : Nat → Nat := fun j =>
  if j = k then v % 2 ^ 8
  else if j = k + 1 then v / 2 ^ 8 % 2 ^ 8
  else if j = k + 2 then v / 2 ^ 16 % 2 ^ 8
  else if j = k + 3 then v / 2 ^ 24 % 2 ^ 8
  else buffer j

/-- `MemRead(a, 4)` over the two buffers (R53, R58); `none` is `OutOfRange(a)`. -/
def specRead (p : Params) (s : SpecState) (a : Nat) : Option Nat :=
  if specInside Config.dataBase Config.dataSize a then some (specWord s.dmem (a - Config.dataBase))
  else if specInside p.instrBase.toNat p.instrSize a then
    some (specWord s.imem (a - p.instrBase.toNat))
  else none

/-- `MemWrite(a, 4, v)` over the two buffers (R53, R59); `none` is `OutOfRange(a)`. -/
def specWrite (p : Params) (s : SpecState) (a v : Nat) : Option SpecState :=
  if specInside Config.dataBase Config.dataSize a then
    some { s with dmem := specStore s.dmem (a - Config.dataBase) v }
  else if specInside p.instrBase.toNat p.instrSize a then
    some { s with imem := specStore s.imem (a - p.instrBase.toNat) v }
  else none

/-- `x[i] <- v` and then the pc advance, committed together (R136, R137). -/
def specSetReg (s : SpecState) (i v : Nat) : SpecState :=
  { s with x := fun j => if j = i then v else s.x j, pc := (s.pc + 4) % 2 ^ 32 }

/-- `sext_32` of a 16-bit field as a 32-bit pattern (00_scope.md R12). -/
def specSext (v : Nat) : Nat := if v < 0x8000 then v else v + 0xFFFF0000

/-- Decode and execute of R100 and R130 on a fetched word, by the numeric values of its fields
(00_scope.md R11). -/
def specExecute (p : Params) (s : SpecState) (w : Nat) : SpecOutcome :=
  let opcode := w / 2 ^ 26 % 2 ^ 6
  let rs := w / 2 ^ 21 % 2 ^ 5
  let rt := w / 2 ^ 16 % 2 ^ 5
  let funct := w % 2 ^ 6
  let ea := (s.x rs + specSext (w % 2 ^ 16)) % 2 ^ 32
  if opcode = 0 ∧ funct = 32 then .ok (specSetReg s rt ((s.x rs + s.x rt) % 2 ^ 32))
  else if opcode = 0 ∧ funct = 34 then .ok (specSetReg s rt ((s.x rs + (2 ^ 32 - s.x rt)) % 2 ^ 32))
  else if opcode = 0 ∧ funct = 38 then .ok (specSetReg s rt (s.x rs ^^^ s.x rt))
  else if opcode = 35 then
    match specRead p s ea with
    | some v => .ok (specSetReg s rt v)
    | none => .error (.outOfRange (BitVec.ofNat 32 ea))
  else if opcode = 43 then
    match specWrite p s ea (s.x rt) with
    | some t => .ok { t with pc := (s.pc + 4) % 2 ^ 32 }
    | none => .error (.outOfRange (BitVec.ofNat 32 ea))
  else .error (.unsupportedInstruction (BitVec.ofNat 32 w))

/-- `Cycle` of R130 over R37's state. -/
def specCycle (p : Params) (s : SpecState) : SpecOutcome :=
  match specRead p s s.pc with
  | some w => specExecute p s w
  | none => .error (.outOfRange (BitVec.ofNat 32 s.pc))

/-- The spec's view of a state of the model: register `i`, the pc, and each region's buffer by index
from its start (R52). An index that names no register, and a buffer index past the size, read 0. -/
def specView (s : State) : SpecState where
  x := fun i => if i < 32 then (getReg s (BitVec.ofNat 5 i)).toNat else 0
  pc := s.pc.toNat
  dmem := fun j => if j < Config.dataSize then (readByte s.mem (Config.dataBase + j)).toNat else 0
  imem := fun j =>
    if j < s.params.instrSize then (readByte s.mem (s.params.instrBase.toNat + j)).toNat else 0

/-- The spec's view of what a step answers; a refusal has none. -/
def specOutcome : Result → Option SpecOutcome
  | .next t => some (.ok (specView t))
  | .fault e => some (.error e)
  | .refused _ => none

end Sys2Proof.Machine
end

