-- ==== Sys2Proof/Machine/HostInterface.lean ====
section
/-! DEFINITION. What the host may do between cycles (70_reset_and_hazards.md R232 to R241) and what a
cycle reports to it (40_execution_cycle.md R143, 60_exceptions.md R207). None of it is part of `step`
(log 20). -/

namespace Sys2Proof.Machine

/-- The outcome of a cycle as the host sees it (R139, R143): a new state, or an error with the old
state. `noMeaning` is what a refusal would give; no cycle of this model gives it. -/
inductive Report where
  | ok (s : State)
  | error (e : Fault) (s : State)
  | noMeaning (r : Refusal) (s : State)
deriving DecidableEq, Repr

/-- One cycle with its report (R130, R138): on an error the state handed back is the old one. -/
def cycle (s : State) : Report :=
  match step s with
  | .next t => .ok t
  | .fault e => .error e s
  | .refused r => .noMeaning r s

/-- The state after the cycle, whatever its outcome. -/
def Report.state : Report → State
  | .ok s => s
  | .error _ s => s
  | .noMeaning _ s => s

/-- The numbering the spec suggests for the `status` output (60_exceptions.md R200, D13, log 15). -/
def Fault.status : Fault → Nat
  | .outOfRange _ => 1
  | .invalidRegister _ => 2
  | .unsupportedInstruction _ => 3

/-- `status` of a report, `0` for OK (R143, R200); a refusal has no status. -/
def Report.status : Report → Option Nat
  | .ok _ => some 0
  | .error e _ => some e.status
  | .noMeaning _ _ => none

/-- Construction of the machine (R230, R240): refused for parameters that break the constraints of
20_memory.md R51 (U9, log 19). -/
def construct (p : Params) : Option State :=
  if p.WellFormed then some (State.resetWith p) else none

/-- `get(index)` (10_state.md R23, R241). -/
def hostGet (s : State) (i : Nat) : Except Fault Word :=
  if h : i < 32 then .ok (s.regs[i]'h) else .error (.invalidRegister i)

/-- `set(index, value)` (R23, R241): an index outside `0..31` changes nothing. -/
def hostSet (s : State) (i : Nat) (v : Word) : Except Fault State :=
  if h : i < 32 then .ok { s with regs := s.regs.set i v h } else .error (.invalidRegister i)

/-- `read(address)` (R241): the same primitive the core uses. -/
def hostRead (s : State) (a : Word) : Except Fault Word := memRead s a

/-- `write(address, value)` (R241). -/
def hostWrite (s : State) (a : Word) (v : Word) : Except Fault State := memWrite s a v

/-- Byte-wise inspection (R241): `mem[a]`, for an address inside a region. DEDUCED (log 23, safe):
`OutOfRange` where no region holds the byte. -/
def hostReadByte (s : State) (a : Word) : Except Fault Byte :=
  if byteExists s.params a.toNat then .ok (readByte s.mem a.toNat) else .error (.outOfRange a)

/-- A byte write by the host (20_memory.md R54 (d), log 23). -/
def hostWriteByte (s : State) (a : Word) (v : Byte) : Except Fault State :=
  if byteExists s.params a.toNat then .ok { s with mem := writeByte s.mem a.toNat v }
  else .error (.outOfRange a)

/-- The host may set `pc` (R241); its alignment is not checked (10_state.md R29). -/
def hostSetPc (s : State) (a : Word) : State := { s with pc := a }

/-- Write words upward from an address, each with MemWrite; the first one that is not admitted ends
the load with its error (R235, log 18). The address is an integer here: past the top of the address
space there is no storage, and a program does not continue at address 0. DESIGN CHOICE (log 18, unsafe
for a claim about that recorded address): the error at an address of `2 ^ 32` or more records it
modulo `2 ^ 32`, because `OutOfRange` carries a 32-bit address. -/
def loadFrom (s : State) (a : Nat) : List Word → Except Fault State
  | [] => .ok s
  | w :: ws =>
    if a < Config.addressLimit then
      match memWrite s (BitVec.ofNat 32 a) w with
      | .ok t => loadFrom t (a + Config.wordBytes) ws
      | .error e => .error e
    else .error (.outOfRange (BitVec.ofNat 32 a))

/-- `load` (R234): the program's words from `INSTR_BASE` upward; `LAST` is the address past them, as a
32-bit address (log 21). -/
def load (s : State) (ws : List Word) : Except Fault State :=
  match loadFrom s s.params.instrBase.toNat ws with
  | .ok t => .ok { t with params := { t.params with
      last := s.params.instrBase + BitVec.ofNat 32 (Config.wordBytes * ws.length) } }
  | .error e => .error e

/-- The errors met in a run, oldest first (60_exceptions.md R207, R214): kept by the host. -/
abbrev RunRecord := List Fault

/-- How a run stands (R238): ended at `LAST`, faulted in the state before the failing cycle, or cycles
left to issue. `noMeaning` is what a refusal would give; no run of this model gives it. -/
inductive RunResult where
  | ended (s : State) (record : RunRecord)
  | faulted (e : Fault) (s : State) (record : RunRecord)
  | unfinished (s : State) (record : RunRecord)
  | noMeaning (r : Refusal) (s : State) (record : RunRecord)
deriving DecidableEq, Repr

/-- Whether the host steps over this error (60_exceptions.md R214): only UnsupportedInstruction, and
only under `SKIP_UNSUPPORTED`. -/
def hostSkips (p : Params) : Fault → Bool
  | .unsupportedInstruction _ => p.skipUnsupported
  | .outOfRange _ => false
  | .invalidRegister _ => false

/-- `Run` (R237) for at most `n` turns of its loop: the end test `pc = LAST` before the fetch
(DESIGN CHOICE of the spec, D10, log 10: safe), then one cycle, then the policy of 60_exceptions.md
R213, R214. -/
def run : Nat → State → RunRecord → RunResult
  | 0, s, rec => if s.pc = s.params.last then .ended s rec else .unfinished s rec
  | n + 1, s, rec =>
    if s.pc = s.params.last then .ended s rec
    else
      match step s with
      | .next t => run n t rec
      | .fault e =>
        if hostSkips s.params e then run n (advancePc s) (rec ++ [e])
        else .faulted e s (rec ++ [e])
      | .refused r => .noMeaning r s rec

end Sys2Proof.Machine
end

