-- ==== Sys2Proof/Safety.lean ====
section
/-! DEFINITION. What counts as a sound state and as a good launch, in the terms the claims use
(10_state.md R29, 20_memory.md R51, R52, 70_reset_and_hazards.md R236). -/

namespace Sys2Proof.Machine

/-- No byte outside the regions is held: such bytes do not exist (10_state.md R36). -/
abbrev MemoryInRegions (s : State) : Prop :=
  ∀ c ∈ s.mem, byteExists s.params c.1 = true

/-- The invariant of every machine that is constructed: the parameters keep the constraints of R51, the
memory is in its canonical form, and it holds bytes of the two regions only. -/
abbrev Inv (s : State) : Prop :=
  s.params.WellFormed ∧ s.mem.wf ∧ MemoryInRegions s

/-- `pc mod 4 = 0` (10_state.md R29). -/
abbrev PcAligned (s : State) : Prop := s.pc.toNat % 4 = 0

/-- `ParamsWellFormed` (R236). -/
abbrev ParamsWellFormed (s : State) : Prop := s.params.WellFormed

/-- `PcAtBase` (R236). -/
abbrev PcAtBase (s : State) : Prop := s.pc = s.params.instrBase

/-- `RegsPreset(f)` (R236): each register has the value the claim states. -/
def RegsPreset (f : RegIdx → Word) (s : State) : Prop := ∀ i : RegIdx, getReg s i = f i

/-- `ProgramLoaded(ws)` (R236): the words lie from `INSTR_BASE` upward, they fit, and `LAST` is the
address past them. -/
def ProgramLoaded (ws : List Word) (s : State) : Prop :=
  4 * ws.length ≤ s.params.instrSize ∧
  s.params.last = s.params.instrBase + BitVec.ofNat 32 (4 * ws.length) ∧
  ∀ (i : Nat) (h : i < ws.length), readWord s.mem (s.params.instrBase.toNat + 4 * i) = ws[i]

/-- `ResetMemory` (R236): every byte not covered by a program of `n` words or by a stated preset
is 0. -/
def ResetMemory (n : Nat) (preset : List Nat) (s : State) : Prop :=
  ∀ a : Nat, a ∉ preset →
    ¬ (s.params.instrBase.toNat ≤ a ∧ a < s.params.instrBase.toNat + 4 * n) →
    readByte s.mem a = 0

/-- `NoErrorRecorded` (R236): the run record is empty. -/
abbrev NoErrorRecorded (rec : RunRecord) : Prop := rec = []

/-- The byte at `b` is none of the four bytes of a word access at `a` (20_memory.md R62 (b)). -/
abbrev OutsideWord (a : Word) (b : Nat) : Prop := b < a.toNat ∨ a.toNat + 4 ≤ b

/-- All four bytes of a word access at `a` lie in one region (20_memory.md R57), written out with the
extents of R51. -/
abbrev WordInRegion (p : Params) (a : Nat) : Prop :=
  (Config.dataBase ≤ a ∧ a + 4 ≤ Config.dataBase + Config.dataSize) ∨
  (p.instrBase.toNat ≤ a ∧ a + 4 ≤ p.instrBase.toNat + p.instrSize)

/-- The number four bytes of memory stand for, lowest address least significant (R58, R63). -/
def littleEndian (m : Memory) (a : Nat) : Nat :=
  (readByte m a).toNat + (readByte m (a + 1)).toNat * 2 ^ 8 +
    (readByte m (a + 2)).toNat * 2 ^ 16 + (readByte m (a + 3)).toNat * 2 ^ 24

/-- Every register but one keeps its value (10_state.md R26). -/
def RegsSameExcept (r : RegIdx) (s t : State) : Prop := ∀ q : RegIdx, q ≠ r → getReg t q = getReg s q

/-- Every register keeps its value. -/
def RegsSame (s t : State) : Prop := ∀ q : RegIdx, getReg t q = getReg s q

/-- Every byte reads as before. -/
def BytesSame (s t : State) : Prop := ∀ b : Nat, readByte t.mem b = readByte s.mem b

/-- Every byte outside the word at `a` reads as before (R59). -/
def BytesSameOutside (a : Word) (s t : State) : Prop :=
  ∀ b : Nat, OutsideWord a b → readByte t.mem b = readByte s.mem b

/-- The program counter has advanced by one word, modulo `2^32` (40_execution_cycle.md R137). -/
def PcAdvanced (s t : State) : Prop := t.pc.toNat = (s.pc.toNat + 4) % 2 ^ 32

end Sys2Proof.Machine
end

