-- ==== Sys2Proof/Certificates/Slice0/Obligations.lean ====
section
/-! DEFINITION. The statements about this machine, from the spec's numbered rules. Nothing is proved
here. A docstring that names a decision D<n> or a log entry says that the statement rests on a choice
and not on the source's own words. -/

open Sys2Proof Sys2Proof.Machine

/-! ## Decoder and encoder -/

/-- Words written out from 30_encoding.md R101 to R108 and 95_test_vectors.md table 2.1. -/
def Obligations.SpecWordsDecodeAsListed : Prop :=
  decode 0x01090020 = .add 8 9 0 ∧ decode 0x0109FFE0 = .add 8 9 31 ∧
  decode 0x01090022 = .sub 8 9 0 ∧ decode 0x03FFFFE6 = .xor 31 31 31 ∧
  decode 0x8C22FFFC = .lw 1 2 0xFFFFFFFC ∧ decode 0x8FFF7FFF = .lw 31 31 0x00007FFF ∧
  decode 0xAD090004 = .sw 8 9 4 ∧ decode 0xAFFF8000 = .sw 31 31 0xFFFF8000 ∧
  decode 0x00000000 = .unrecognized ∧ decode 0x01090021 = .unrecognized ∧
  decode 0x04000020 = .unrecognized ∧ decode 0xB0000000 = .unrecognized

/-- R100: the decoder, with every field read as a number out of the word (00_scope.md R11, R12). -/
def Obligations.DecodeIsTheDecoderFunction : Prop :=
  ∀ w : Word,
    let opcode := w.toNat / 2 ^ 26
    let rs := BitVec.ofNat 5 (w.toNat / 2 ^ 21)
    let rt := BitVec.ofNat 5 (w.toNat / 2 ^ 16)
    let rd := BitVec.ofNat 5 (w.toNat / 2 ^ 11)
    let funct := w.toNat % 2 ^ 6
    let imm := BitVec.ofNat 32 (specSext (w.toNat % 2 ^ 16))
    decode w =
      if opcode = 0 then
        if funct = 32 then .add rs rt rd
        else if funct = 34 then .sub rs rt rd
        else if funct = 38 then .xor rs rt rd
        else .unrecognized
      else if opcode = 35 then .lw rs rt imm
      else if opcode = 43 then .sw rs rt imm
      else .unrecognized

/-- R101 to R106: each row of the opcode table is exactly the words of its mask and match, with its
operands in the fields of its pattern; the last row is every word that matches none of the five before
it. -/
def Obligations.DecodeFollowsTheMasks : Prop :=
  ∀ w : Word,
    let rs := w.extractLsb' 21 5
    let rt := w.extractLsb' 16 5
    let rd := w.extractLsb' 11 5
    let imm := BitVec.ofNat 32 (specSext (w.toNat % 2 ^ 16))
    (w &&& 0xFC00003F = 0x00000020 ↔ decode w = .add rs rt rd) ∧
    (w &&& 0xFC00003F = 0x00000022 ↔ decode w = .sub rs rt rd) ∧
    (w &&& 0xFC00003F = 0x00000026 ↔ decode w = .xor rs rt rd) ∧
    (w &&& 0xFC000000 = 0x8C000000 ↔ decode w = .lw rs rt imm) ∧
    (w &&& 0xFC000000 = 0xAC000000 ↔ decode w = .sw rs rt imm) ∧
    (w &&& 0xFC00003F ≠ 0x00000020 ∧ w &&& 0xFC00003F ≠ 0x00000022 ∧
      w &&& 0xFC00003F ≠ 0x00000026 ∧ w &&& 0xFC000000 ≠ 0x8C000000 ∧
      w &&& 0xFC000000 ≠ 0xAC000000 ↔ decode w = .unrecognized)

/-- R107 (an inference of the spec from R95 and R100): bits 15:6 of a register-form word select nothing
and have no effect. -/
def Obligations.RegisterFormIgnoresBits15To6 : Prop :=
  ∀ w w' : Word, w.toNat / 2 ^ 26 = 0 →
    (∀ k, k < 6 ∨ 16 ≤ k → w.getLsbD k = w'.getLsbD k) →
    (decode w).kind = (decode w').kind ∧ ∀ s, exec (decode w) s = exec (decode w') s

/-- R112 (an inference of the spec from R100): when two words give one descriptor. -/
def Obligations.SameDescriptorExactlyWhen : Prop :=
  ∀ w w' : Word, decode w = decode w' ↔
    w = w' ∨
    (decode w = .unrecognized ∧ decode w' = .unrecognized) ∨
    (((decode w).kind = .add ∨ (decode w).kind = .sub ∨ (decode w).kind = .xor) ∧
      ∀ k, k < 6 ∨ 11 ≤ k → w.getLsbD k = w'.getLsbD k)

/-- The decoder reads back every operand at every value the encoding admits. -/
def Obligations.DecodeEncodeRoundTrip : Prop :=
  ∀ i : Instr, i.wf = true → decode (encode i) = i

/-- The encoder writes a recognised word back, with bits 10:6 of the register form cleared (the
canonical choice of R115, D12). -/
def Obligations.EncodeDecodeIsCanonical : Prop :=
  ∀ w : Word, (decode w).kind ≠ .unrecognized →
    encode (decode w) = if w.toNat / 2 ^ 26 = 0 then w &&& 0xFFFFF83F else w

/-- R97, R114: the decoder answers well-formed descriptors only, and an immediate is the signed value of
the word's low 16 bits. -/
def Obligations.DecodedOperandsAreWellFormed : Prop :=
  (∀ w : Word, (decode w).wf = true) ∧
  ∀ (w : Word) (rs rt : RegIdx) (imm : Word),
    decode w = .lw rs rt imm ∨ decode w = .sw rs rt imm →
    imm.toInt = (w.extractLsb' 0 16).toInt ∧ -32768 ≤ imm.toInt ∧ imm.toInt ≤ 32767

/-- R113 (signal names are the spec's own, D11): the flat port view says of every field a kind carries
what the descriptor says. -/
def Obligations.PortViewAgreesWithDescriptor : Prop :=
  ∀ w : Word, (decodePorts w).kind = (decode w).kind ∧
    match decode w with
    | .add rs rt rd => (decodePorts w).rs = rs ∧ (decodePorts w).rt = rt ∧ (decodePorts w).rd = rd
    | .sub rs rt rd => (decodePorts w).rs = rs ∧ (decodePorts w).rt = rt ∧ (decodePorts w).rd = rd
    | .xor rs rt rd => (decodePorts w).rs = rs ∧ (decodePorts w).rt = rt ∧ (decodePorts w).rd = rd
    | .lw rs rt imm => (decodePorts w).rs = rs ∧ (decodePorts w).rt = rt ∧ (decodePorts w).imm = imm
    | .sw rs rt imm => (decodePorts w).rs = rs ∧ (decodePorts w).rt = rt ∧ (decodePorts w).imm = imm
    | .unrecognized => True

/-- R63, R90: an instruction is four bytes, the one at the lowest address the least significant; fewer
bytes are no instruction. -/
def Obligations.InstructionsAreFourLittleEndianBytes : Prop :=
  (∀ (b0 b1 b2 b3 : Byte) (rest : List Byte), ∃ w : Word,
    w.toNat = b0.toNat + b1.toNat * 2 ^ 8 + b2.toNat * 2 ^ 16 + b3.toNat * 2 ^ 24 ∧
    decodeBytes (b0 :: b1 :: b2 :: b3 :: rest) = .ok (decode w, rest)) ∧
  ∀ l : List Byte, l.length < 4 → decodeBytes l = .error .truncated

/-! ## The cycle -/

/-- R131: the word at `pc` is fetched by the ordinary read and the decoded instruction runs in the same
state; where the read is not admitted nothing is decoded or executed. `step` adds nothing around
`exec`, which advances the pc itself: the model's choice of log 12 (D15). -/
def Obligations.StepRunsTheDecodedInstruction : Prop :=
  ∀ s : State,
    (∀ i, WordInRegion s.params s.pc.toNat →
      decodeBytes [readByte s.mem s.pc.toNat, readByte s.mem (s.pc.toNat + 1),
        readByte s.mem (s.pc.toNat + 2), readByte s.mem (s.pc.toNat + 3)] = .ok (i, []) →
      step s = exec i s) ∧
    (¬ WordInRegion s.params s.pc.toNat → step s = .fault (.outOfRange s.pc))

/-- The model's own way of placing an instruction (log 17): the very next step runs it, and nothing else
of the machine is touched. -/
def Obligations.PlacedInstructionRunsNext : Prop :=
  ∀ (s : State) (nbits w : Nat), s.params.WellFormed →
    step (s.withFetchWord nbits w) =
      exec (decode (BitVec.ofNat 32 (w % 2 ^ nbits))) (s.withFetchWord nbits w) ∧
    RegsSame s (s.withFetchWord nbits w) ∧ (s.withFetchWord nbits w).params = s.params ∧
    BytesSameOutside (s.withFetchWord nbits w).pc s (s.withFetchWord nbits w)

/-- R204: which cycle can raise what, complete. -/
def Obligations.StepFaultsExactlyWhen : Prop :=
  ∀ (s : State) (e : Fault), step s = .fault e ↔
    (¬ WordInRegion s.params s.pc.toNat ∧ e = .outOfRange s.pc) ∨
    (WordInRegion s.params s.pc.toNat ∧
      decode (readWord s.mem s.pc.toNat) = .unrecognized ∧
      e = .unsupportedInstruction (readWord s.mem s.pc.toNat)) ∨
    (WordInRegion s.params s.pc.toNat ∧
      ∃ rs rt imm,
        (decode (readWord s.mem s.pc.toNat) = .lw rs rt imm ∨
          decode (readWord s.mem s.pc.toNat) = .sw rs rt imm) ∧
        ¬ WordInRegion s.params (effectiveAddress s rs imm).toNat ∧
        e = .outOfRange (effectiveAddress s rs imm))

/-- R138, R205: a cycle that raises an error hands back the old state with the error; a cycle reports an
error exactly when the step faults with it. -/
def Obligations.ErrorsLeaveTheStateUnchanged : Prop :=
  ∀ (s t : State) (e : Fault), cycle s = .error e t ↔ t = s ∧ step s = .fault e

/-- R139 (an inference of the spec): every cycle is either OK with a new state or an error with the old
one; none is without a meaning. -/
def Obligations.EveryCycleIsOkOrError : Prop :=
  ∀ s : State, (∃ t, step s = .next t ∧ cycle s = .ok t) ∨
    (∃ e, step s = .fault e ∧ cycle s = .error e s)

/-- R202 (an inference of the spec from R93 to R95): no step raises InvalidRegister. -/
def Obligations.NoStepRaisesInvalidRegister : Prop :=
  ∀ (s : State) (n : Nat), step s ≠ .fault (.invalidRegister n)

/-- R28, R137 (the wrap is D9): the pc advances by one word whatever the instruction was, and no
instruction supplies a target. -/
def Obligations.EverySuccessfulStepAdvancesPc : Prop :=
  ∀ s t : State, step s = .next t → PcAdvanced s t

/-- R192 (an inference of the spec): after `k` cycles the pc has moved by `4k`, so programs are
straight-line. -/
def Obligations.ExecutionIsStraightLine : Prop :=
  ∀ (k : Nat) (s t : State), Sys2Proof.core.run k s = .next t →
    t.pc = s.pc + BitVec.ofNat 32 (4 * k)

/-- R135: a successful cycle writes, besides the pc, nothing but one register for ADD, SUB, XOR and LW,
and nothing but one memory word for SW. That the register of ADD, SUB and XOR is `rt` is D1 (log 4,
DESIGN CHOICE). -/
def Obligations.OneArchitecturalWritePerStep : Prop :=
  ∀ s t : State, step s = .next t →
    match decode (readWord s.mem s.pc.toNat) with
    | .add _ rt _ => RegsSameExcept rt s t ∧ BytesSame s t
    | .sub _ rt _ => RegsSameExcept rt s t ∧ BytesSame s t
    | .xor _ rt _ => RegsSameExcept rt s t ∧ BytesSame s t
    | .lw _ rt _ => RegsSameExcept rt s t ∧ BytesSame s t
    | .sw rs _ imm => RegsSame s t ∧ BytesSameOutside (effectiveAddress s rs imm) s t
    | .unrecognized => False

/-! ## ADD, SUB, XOR -/

/-- R150: ADD completes in every state, with the sum modulo `2^32` in `x[rt]`; its words are those of the
mask, with `rs` and `rt` in their fields. The destination `rt` is D1 (log 4, DESIGN CHOICE). -/
def Obligations.AddWritesTheSum : Prop :=
  (∀ (rs rt rd : RegIdx) (s : State), ∃ t, exec (.add rs rt rd) s = .next t ∧
    (getReg t rt).toNat = ((getReg s rs).toNat + (getReg s rt).toNat) % 2 ^ 32 ∧
    RegsSameExcept rt s t ∧ PcAdvanced s t ∧ BytesSame s t ∧ t.params = s.params) ∧
  ∀ w : Word, w &&& 0xFC00003F = 0x00000020 →
    ∃ rd, decode w = .add (w.extractLsb' 21 5) (w.extractLsb' 16 5) rd

/-- R155: SUB completes in every state, with `x[rs] - x[rt]` modulo `2^32` in `x[rt]`. The destination
`rt` is D1 (log 4, DESIGN CHOICE). -/
def Obligations.SubWritesTheDifference : Prop :=
  (∀ (rs rt rd : RegIdx) (s : State), ∃ t, exec (.sub rs rt rd) s = .next t ∧
    ((getReg t rt).toNat : Int) =
      (((getReg s rs).toNat : Int) - ((getReg s rt).toNat : Int)) % 2 ^ 32 ∧
    RegsSameExcept rt s t ∧ PcAdvanced s t ∧ BytesSame s t ∧ t.params = s.params) ∧
  ∀ w : Word, w &&& 0xFC00003F = 0x00000022 →
    ∃ rd, decode w = .sub (w.extractLsb' 21 5) (w.extractLsb' 16 5) rd

/-- R160: XOR completes in every state, bit by bit. The destination `rt` is D1 (log 4, DESIGN CHOICE). -/
def Obligations.XorWritesTheExclusiveOr : Prop :=
  (∀ (rs rt rd : RegIdx) (s : State), ∃ t, exec (.xor rs rt rd) s = .next t ∧
    (∀ k, k < 32 → (getReg t rt).getLsbD k = ((getReg s rs).getLsbD k ^^ (getReg s rt).getLsbD k)) ∧
    RegsSameExcept rt s t ∧ PcAdvanced s t ∧ BytesSame s t ∧ t.params = s.params) ∧
  ∀ w : Word, w &&& 0xFC00003F = 0x00000026 →
    ∃ rd, decode w = .xor (w.extractLsb' 21 5) (w.extractLsb' 16 5) rd

/-- The frame of ADD, SUB and XOR: one register and the pc change, and no byte of memory
(10_state.md R24, R26; the destination `rt` is D1). -/
def Obligations.RegisterFormFrame : Prop :=
  ∀ (i : Instr) (rs rt rd : RegIdx) (s t : State),
    (i = .add rs rt rd ∨ i = .sub rs rt rd ∨ i = .xor rs rt rd) → exec i s = .next t →
    RegsSameExcept rt s t ∧ PcAdvanced s t ∧ BytesSame s t ∧ t.params = s.params

/-- R151, R156 (inferences of the spec): overflow is no error, and the result is the same pattern for a
signed and an unsigned reading of the operands. -/
def Obligations.AddAndSubWrapForBothReadings : Prop :=
  ∀ (rs rt rd : RegIdx) (s : State),
    (∃ t, exec (.add rs rt rd) s = .next t ∧
      (getReg t rt).toInt = ((getReg s rs).toInt + (getReg s rt).toInt).bmod (2 ^ 32)) ∧
    (∃ t, exec (.sub rs rt rd) s = .next t ∧
      (getReg t rt).toInt = ((getReg s rs).toInt - (getReg s rt).toInt).bmod (2 ^ 32))

/-- R152, R157, R162 (inferences of the spec; D1, D2): one register as both operands, a zero operand, and
register 0 as destination. -/
def Obligations.RegisterFormCorners : Prop :=
  ∀ (r q rd : RegIdx) (s : State),
    (∃ t, exec (.add r r rd) s = .next t ∧
      (getReg t r).toNat = 2 * (getReg s r).toNat % 2 ^ 32) ∧
    (∃ t, exec (.sub r r rd) s = .next t ∧ getReg t r = 0) ∧
    (∃ t, exec (.xor r r rd) s = .next t ∧ getReg t r = 0) ∧
    (getReg s q = 0 →
      (∃ t, exec (.add q r rd) s = .next t ∧ RegsSame s t) ∧
      (∃ t, exec (.sub q r rd) s = .next t ∧
        (getReg t r).toNat = (2 ^ 32 - (getReg s r).toNat) % 2 ^ 32) ∧
      (∃ t, exec (.xor q r rd) s = .next t ∧ RegsSame s t) ∧
      (∃ t, exec (.sub r q rd) s = .next t ∧ getReg t q = getReg s r)) ∧
    (∃ t, exec (.add r 0 rd) s = .next t ∧
      (getReg t 0).toNat = ((getReg s r).toNat + (getReg s 0).toNat) % 2 ^ 32)

/-- R161 (an inference of the spec): the same XOR twice, with two different registers, restores every
register. -/
def Obligations.XorTwiceRestores : Prop :=
  ∀ (rs rt rd rd' : RegIdx) (s : State), rs ≠ rt →
    ∃ t u, exec (.xor rs rt rd) s = .next t ∧ exec (.xor rs rt rd') t = .next u ∧ RegsSame s u

/-- R147: the result is a function of the two source values at cycle start and of nothing else: states
that agree on them give the same result, whatever else they hold. -/
def Obligations.ResultDependsOnTheSourcesOnly : Prop :=
  ∀ (rs rt rd rd' : RegIdx) (s s' : State),
    getReg s rs = getReg s' rs → getReg s rt = getReg s' rt →
    (∃ t t', exec (.add rs rt rd) s = .next t ∧ exec (.add rs rt rd') s' = .next t' ∧
      getReg t rt = getReg t' rt) ∧
    (∃ t t', exec (.sub rs rt rd) s = .next t ∧ exec (.sub rs rt rd') s' = .next t' ∧
      getReg t rt = getReg t' rt) ∧
    (∃ t t', exec (.xor rs rt rd) s = .next t ∧ exec (.xor rs rt rd') s' = .next t' ∧
      getReg t rt = getReg t' rt)

/-! ## LW, SW -/

/-- R171 (the wrap is D9): base plus the signed displacement, modulo `2^32`. -/
def Obligations.EffectiveAddressIsBasePlusDisplacement : Prop :=
  ∀ (s : State) (rs : RegIdx) (imm16 : BitVec 16),
    ((effectiveAddress s rs (sext32 imm16)).toNat : Int) =
      (((getReg s rs).toNat : Int) + imm16.toInt) % 2 ^ 32

/-- R170: LW completes wherever its word lies in one region, with the little-endian word at the effective
address in `x[rt]`; its words are those of the mask. That it completes at a misaligned address too is D5
(log 6, DESIGN CHOICE, R64), and that it loads also where `rt = rs`, where the base does not survive, is
the spec's own inference R173 (a), which follows conflict C3. -/
def Obligations.LwLoadsTheWord : Prop :=
  (∀ (rs rt : RegIdx) (imm : Word) (s : State),
    WordInRegion s.params (effectiveAddress s rs imm).toNat →
    ∃ t, exec (.lw rs rt imm) s = .next t ∧
      (getReg t rt).toNat = littleEndian s.mem (effectiveAddress s rs imm).toNat ∧
      RegsSameExcept rt s t ∧ PcAdvanced s t ∧ BytesSame s t ∧ t.params = s.params) ∧
  ∀ w : Word, w &&& 0xFC000000 = 0x8C000000 →
    decode w = .lw (w.extractLsb' 21 5) (w.extractLsb' 16 5)
      (BitVec.ofNat 32 (specSext (w.toNat % 2 ^ 16)))

/-- R172: an LW outside the regions ends with OutOfRange, writes nothing, and the pc stays; no value is
substituted, and it is the only error LW itself can raise. -/
def Obligations.LwOutOfRangeWritesNothing : Prop :=
  ∀ (rs rt : RegIdx) (imm : Word) (s : State),
    (¬ WordInRegion s.params (effectiveAddress s rs imm).toNat →
      exec (.lw rs rt imm) s = .fault (.outOfRange (effectiveAddress s rs imm)) ∧
      (WordInRegion s.params s.pc.toNat → decode (readWord s.mem s.pc.toNat) = .lw rs rt imm →
        cycle s = .error (.outOfRange (effectiveAddress s rs imm)) s)) ∧
    ∀ e, exec (.lw rs rt imm) s = .fault e → e = .outOfRange (effectiveAddress s rs imm)

/-- R175: SW completes wherever its word lies in one region, with the four bytes of `x[rt]`, lowest first,
at the effective address; every other byte and every register keeps its value. -/
def Obligations.SwStoresTheWord : Prop :=
  (∀ (rs rt : RegIdx) (imm : Word) (s : State),
    WordInRegion s.params (effectiveAddress s rs imm).toNat →
    ∃ t, exec (.sw rs rt imm) s = .next t ∧
      (∀ k, k < 4 →
        (readByte t.mem ((effectiveAddress s rs imm).toNat + k)).toNat =
          (getReg s rt).toNat / 2 ^ (8 * k) % 2 ^ 8) ∧
      BytesSameOutside (effectiveAddress s rs imm) s t ∧
      RegsSame s t ∧ PcAdvanced s t ∧ t.params = s.params) ∧
  ∀ w : Word, w &&& 0xFC000000 = 0xAC000000 →
    decode w = .sw (w.extractLsb' 21 5) (w.extractLsb' 16 5)
      (BitVec.ofNat 32 (specSext (w.toNat % 2 ^ 16)))

/-- R177: an SW outside the regions ends with OutOfRange and writes no byte, not even those of the four
that lie inside a region; it is the only error SW itself can raise. -/
def Obligations.SwOutOfRangeWritesNothing : Prop :=
  ∀ (rs rt : RegIdx) (imm : Word) (s : State),
    (¬ WordInRegion s.params (effectiveAddress s rs imm).toNat →
      exec (.sw rs rt imm) s = .fault (.outOfRange (effectiveAddress s rs imm)) ∧
      (WordInRegion s.params s.pc.toNat → decode (readWord s.mem s.pc.toNat) = .sw rs rt imm →
        cycle s = .error (.outOfRange (effectiveAddress s rs imm)) s)) ∧
    ∀ e, exec (.sw rs rt imm) s = .fault e → e = .outOfRange (effectiveAddress s rs imm)

/-- R181: neither LW nor SW has any other effect; LW writes no memory, SW no register, the base register
is not touched by the addressing, and the end marker and the region extents stay. -/
def Obligations.LwAndSwHaveNoOtherEffect : Prop :=
  ∀ (rs rt : RegIdx) (imm : Word) (s t : State),
    (exec (.lw rs rt imm) s = .next t →
      RegsSameExcept rt s t ∧ BytesSame s t ∧ PcAdvanced s t ∧ t.params = s.params) ∧
    (exec (.sw rs rt imm) s = .next t →
      RegsSame s t ∧ BytesSameOutside (effectiveAddress s rs imm) s t ∧ PcAdvanced s t ∧
      t.params = s.params)

/-- R180 (an inference of the spec): an SW that succeeds, then an LW with the same base and displacement
after anything that leaves the base, the four bytes and the regions alone, loads the stored value; the
base survives unless it is the load's destination. -/
def Obligations.StoreThenLoadRoundTrips : Prop :=
  ∀ (ra rb rc : RegIdx) (imm : Word) (s t t' : State),
    exec (.sw rb ra imm) s = .next t →
    getReg t' rb = getReg t rb → t'.params = t.params →
    (∀ k, k < 4 → readByte t'.mem ((effectiveAddress s rb imm).toNat + k) =
      readByte t.mem ((effectiveAddress s rb imm).toNat + k)) →
    getReg t rb = getReg s rb ∧
    ∃ u, exec (.lw rb rc imm) t' = .next u ∧ getReg u rc = getReg s ra ∧
      (rc ≠ rb → getReg u rb = getReg s rb)

/-- R71, R244: a store to the word at `pc + 4` is the instruction the very next step runs (stores reach
the instruction region by D14). -/
def Obligations.StoreIsSeenByTheNextFetch : Prop :=
  ∀ (rs rt : RegIdx) (imm : Word) (s t : State),
    exec (.sw rs rt imm) s = .next t → effectiveAddress s rs imm = s.pc + 4 →
    step t = exec (decode (getReg s rt)) t

/-! ## UNRECOGNIZED -/

/-- R190: every word that is none of the five forms decodes to UNRECOGNIZED, and executing it always raises
UnsupportedInstruction with the fetched word, the state unchanged. -/
def Obligations.UnrecognizedAlwaysRaisesUnsupported : Prop :=
  (∀ w : Word, w &&& 0xFC00003F ≠ 0x00000020 → w &&& 0xFC00003F ≠ 0x00000022 →
    w &&& 0xFC00003F ≠ 0x00000026 → w &&& 0xFC000000 ≠ 0x8C000000 →
    w &&& 0xFC000000 ≠ 0xAC000000 → decode w = .unrecognized) ∧
  ∀ s : State, WordInRegion s.params s.pc.toNat →
    exec .unrecognized s = .fault (.unsupportedInstruction (readWord s.mem s.pc.toNat)) ∧
    (decode (readWord s.mem s.pc.toNat) = .unrecognized →
      cycle s = .error (.unsupportedInstruction (readWord s.mem s.pc.toNat)) s)

/-! ## Memory -/

/-- R58, R60: MemRead gives the little-endian word of the four bytes, or OutOfRange and no value, for data
and for the fetch alike. -/
def Obligations.MemReadGivesTheLittleEndianWord : Prop :=
  ∀ (s : State) (a : Word),
    (WordInRegion s.params a.toNat →
      ∃ v, memRead s a = .ok v ∧ v.toNat = littleEndian s.mem a.toNat) ∧
    (¬ WordInRegion s.params a.toNat → memRead s a = .error (.outOfRange a)) ∧
    (¬ WordInRegion s.params s.pc.toNat → fetch s = .error (.outOfRange s.pc))

/-- R59: MemWrite stores the four bytes little-endian and changes nothing else, or OutOfRange and
nothing. -/
def Obligations.MemWriteStoresFourBytes : Prop :=
  ∀ (s : State) (a v : Word),
    (WordInRegion s.params a.toNat →
      ∃ t, memWrite s a v = .ok t ∧
        (∀ k, k < 4 → (readByte t.mem (a.toNat + k)).toNat = v.toNat / 2 ^ (8 * k) % 2 ^ 8) ∧
        BytesSameOutside a s t ∧ RegsSame s t ∧ t.pc = s.pc ∧ t.params = s.params) ∧
    (¬ WordInRegion s.params a.toNat → memWrite s a v = .error (.outOfRange a))

/-- R62: the read-after-write laws (a), (b), (c), aligned or not, and the three addresses at the end of the
data region where the write itself fails. -/
def Obligations.ReadAfterWriteLaws : Prop :=
  (∀ (s : State) (a v : Word), WordInRegion s.params a.toNat →
    ∃ t, memWrite s a v = .ok t ∧ memRead t a = .ok v ∧ BytesSameOutside a s t) ∧
  (∀ (s : State) (a : Word), WordInRegion s.params a.toNat →
    ∃ t, memWrite s a 0x01020304 = .ok t ∧
      [readByte t.mem a.toNat, readByte t.mem (a.toNat + 1), readByte t.mem (a.toNat + 2),
        readByte t.mem (a.toNat + 3)] = [0x04, 0x03, 0x02, 0x01]) ∧
  ∀ (s : State) (a v : Word), s.params.WellFormed → 0xFD ≤ a.toNat → a.toNat ≤ 0xFF →
    memWrite s a v = .error (.outOfRange a)

/-- R53: containment is on integers, and because the regions are disjoint at most one contains an
address. -/
def Obligations.AtMostOneRegionContainsAnAddress : Prop :=
  ∀ (p : Params) (a : Nat), p.WellFormed →
    (∀ r, r ∈ p.regions → (regionContains r a = true ↔ r.start ≤ a ∧ a < r.start + r.size)) ∧
    ∀ r q, r ∈ p.regions → q ∈ p.regions → regionContains r a = true →
      regionContains q a = true → r = q

/-- R57, R65 (inferences of the spec; D6): for an aligned address admission is containment of the first
byte; the three highest addresses of the data region, and those whose four bytes would wrap, are never
admitted. -/
def Obligations.AdmissionAtTheEdges : Prop :=
  ∀ (p : Params) (a : Word), p.WellFormed →
    (a.toNat % 4 = 0 → (admitted p a = true ↔ byteExists p a.toNat = true)) ∧
    (0xFD ≤ a.toNat ∧ a.toNat ≤ 0xFF → admitted p a = false) ∧
    (0xFFFFFFFD ≤ a.toNat → admitted p a = false)

/-! ## Reset, host, run -/

/-- 10_state.md R38, R230: the state after reset for every well-formed choice of parameters. That the
registers are 0 is D4 (log 2) and that the pc is INSTR_BASE is D7 (log 3), the model's choices. -/
def Obligations.ResetLeavesZeroesAndPcAtBase : Prop :=
  ∀ p : Params, p.WellFormed →
    construct p = some (State.resetWith p) ∧
    (∀ r : RegIdx, getReg (State.resetWith p) r = 0) ∧
    (State.resetWith p).pc = p.instrBase ∧
    (∀ a : Word, WordInRegion p a.toNat → memRead (State.resetWith p) a = .ok 0) ∧
    (State.resetWith p).params = p

/-- R231: memory straight after reset holds only zeros, and a cycle issued then raises UnsupportedInstruction with the all-zero word; the
region extents never change. -/
def Obligations.CycleAfterResetIsUnsupported : Prop :=
  (∀ p : Params, p.WellFormed →
    (∀ a : Nat, readByte (State.resetWith p).mem a = 0) ∧
    cycle (State.resetWith p) = .error (.unsupportedInstruction 0) (State.resetWith p)) ∧
  ∀ s t : State, step s = .next t → t.params = s.params

/-- The invariant holds at reset, for the default and for every well-formed choice of parameters. -/
def Obligations.InvHoldsAtReset : Prop :=
  Inv State.reset ∧ ∀ p : Params, p.WellFormed → Inv (State.resetWith p)

/-- 10_state.md R36, 20_memory.md R51, R59: every step keeps the parameters' constraints, the canonical
form of the memory, and that no byte outside the regions is held. -/
def Obligations.EveryStepKeepsInv : Prop :=
  ∀ s t : State, Inv s → step s = .next t → Inv t

/-- R29 (an inference of the spec): the pc is aligned at reset and every step keeps it so. -/
def Obligations.PcStaysAligned : Prop :=
  (∀ p : Params, p.WellFormed → PcAligned (State.resetWith p)) ∧
  ∀ s t : State, PcAligned s → step s = .next t → PcAligned t

/-- R23, R241: the register file's contract for the host. -/
def Obligations.HostRegisterContract : Prop :=
  ∀ (s : State) (i : Nat) (v : Word),
    (i < 32 →
      hostGet s i = .ok (getReg s (BitVec.ofNat 5 i)) ∧
      ∃ t, hostSet s i v = .ok t ∧ hostGet t i = .ok v ∧
        (∀ j, j ≠ i → hostGet t j = hostGet s j) ∧ t.pc = s.pc ∧ t.mem = s.mem ∧
        t.params = s.params) ∧
    (¬ i < 32 → hostGet s i = .error (.invalidRegister i) ∧
      hostSet s i v = .error (.invalidRegister i))

/-- R241, R62 (c): after the host's word write, byte-wise inspection shows the word little-endian; a byte
outside the regions is OutOfRange (the model's reading, log 23). -/
def Obligations.HostSeesTheWrittenBytes : Prop :=
  ∀ (s t : State) (a v : Word), s.params.WellFormed → hostWrite s a v = .ok t →
    (∀ k, k < 4 → hostReadByte t (a + BitVec.ofNat 32 k) = .ok (BitVec.ofNat 8 (v.toNat / 2 ^ (8 * k)))) ∧
    ∀ b : Word, byteExists s.params b.toNat = false → hostReadByte s b = .error (.outOfRange b)

/-- R240, R241: what the host may do between cycles keeps the invariant. -/
def Obligations.HostActionsKeepInv : Prop :=
  ∀ s : State, Inv s →
    (∀ i v t, hostSet s i v = .ok t → Inv t) ∧
    (∀ a v t, hostWrite s a v = .ok t → Inv t) ∧
    (∀ a v t, hostWriteByte s a v = .ok t → Inv t) ∧
    (∀ a, Inv (hostSetPc s a)) ∧
    (∀ ws t, load s ws = .ok t → Inv t)

/-- R234: a program that fits lies word by word from INSTR_BASE, LAST is the address past it, and nothing
else changes. -/
def Obligations.LoadPlacesTheProgram : Prop :=
  ∀ (s : State) (ws : List Word), s.params.WellFormed → 4 * ws.length ≤ s.params.instrSize →
    ∃ t, load s ws = .ok t ∧ ProgramLoaded ws t ∧
      t.params = { s.params with last := t.params.last } ∧ RegsSame s t ∧ t.pc = s.pc ∧
      ∀ b : Nat, b < s.params.instrBase.toNat ∨ s.params.instrBase.toNat + 4 * ws.length ≤ b →
        readByte t.mem b = readByte s.mem b

/-- R235: a program that does not fit raises OutOfRange at the first word past the region (the error is
the loader's answer, log 18). Where the region ends at `2^32` the recorded address is 0, the model's choice
of log 18. -/
def Obligations.LoadOfTooLongProgramIsOutOfRange : Prop :=
  ∀ (s : State) (ws : List Word), s.params.WellFormed → s.params.instrSize < 4 * ws.length →
    load s ws = .error (.outOfRange
      (BitVec.ofNat 32 (s.params.instrBase.toNat + s.params.instrSize)))

/-- R237 with R213, R214 (D8, D10): the end test comes before the fetch; after an error the run skips an
UnsupportedInstruction by moving the pc alone, if the policy says so, and else is faulted in the state
before the failing cycle. -/
def Obligations.RunFollowsTheHostLoop : Prop :=
  ∀ (n : Nat) (s : State) (rec : RunRecord),
    (s.pc = s.params.last → run n s rec = .ended s rec) ∧
    (s.pc ≠ s.params.last →
      (∀ t, step s = .next t → run (n + 1) s rec = run n t rec) ∧
      (∀ w, step s = .fault (.unsupportedInstruction w) → s.params.skipUnsupported = true →
        run (n + 1) s rec = run n { s with pc := s.pc + 4 } (rec ++ [.unsupportedInstruction w])) ∧
      (∀ e, step s = .fault e →
        (s.params.skipUnsupported = false ∨ ∀ w, e ≠ .unsupportedInstruction w) →
        run (n + 1) s rec = .faulted e s (rec ++ [e])))

/-- R192, R238 (inferences of the spec): a run whose pc is `n` words before LAST is over after at most
`n` cycles. -/
def Obligations.RunTerminates : Prop :=
  ∀ (n : Nat) (s : State) (rec : RunRecord),
    s.pc + BitVec.ofNat 32 (4 * n) = s.params.last →
    (∃ t rec', run n s rec = .ended t rec') ∨ ∃ e t rec', run n s rec = .faulted e t rec'

/-! ## The whole machine -/

/-- R140, R142 (signal names are D11 for the register file and the model's for the data port, log 24): a successful step is what the register file's write port and the
memory's data port commit, and the pc advance. -/
def Obligations.StepCommitsThePorts : Prop :=
  ∀ (s t : State) (w : Word), fetch s = .ok w → step s = .next t →
    t = advancePc (commitReg (regPorts w s) (commitData (dataPort w s) s)) ∧
    ((regPorts w s).we = true ↔ (decode w).kind ≠ .sw) ∧
    ((dataPort w s).write = true ↔ (decode w).kind = .sw)

/-- R130 over the state of R37: for every state with well-formed parameters, a step is the spec's own
cycle over two separate byte buffers in integer arithmetic, error for error and value for value (with
the spec's decisions D1, D2, D5, D6, D9, D14: logs 4, 5, 6, 7, 8, 11). -/
def Obligations.StepRefinesTheTwoBufferCycle : Prop :=
  ∀ s : State, s.params.WellFormed →
    specOutcome (step s) = some (specCycle s.params (specView s))
end

