-- ==== Sys2Proof/Laws/Decode.lean ====
section
/-! SUPPORT. Words and fields as numbers (00_scope.md R11, 30_encoding.md R115), and from them the
fields of an encoded word. -/

namespace Sys2Proof

theorem opcodeOf_toNat (w : Word) : (opcodeOf w).toNat = w.toNat / 2 ^ 26 % 2 ^ 6 := by
  simp [opcodeOf, BitVec.extractLsb'_toNat, Nat.shiftRight_eq_div_pow]
theorem rsOf_toNat (w : Word) : (rsOf w).toNat = w.toNat / 2 ^ 21 % 2 ^ 5 := by
  simp [rsOf, BitVec.extractLsb'_toNat, Nat.shiftRight_eq_div_pow]
theorem rtOf_toNat (w : Word) : (rtOf w).toNat = w.toNat / 2 ^ 16 % 2 ^ 5 := by
  simp [rtOf, BitVec.extractLsb'_toNat, Nat.shiftRight_eq_div_pow]
theorem rdOf_toNat (w : Word) : (rdOf w).toNat = w.toNat / 2 ^ 11 % 2 ^ 5 := by
  simp [rdOf, BitVec.extractLsb'_toNat, Nat.shiftRight_eq_div_pow]
theorem functOf_toNat (w : Word) : (functOf w).toNat = w.toNat % 2 ^ 6 := by
  simp [functOf, BitVec.extractLsb'_toNat]
theorem imm16Of_toNat (w : Word) : (imm16Of w).toNat = w.toNat % 2 ^ 16 := by
  simp [imm16Of, BitVec.extractLsb'_toNat]

/-- `sext_32` as a number (R12). -/
theorem sext32_toNat (v : BitVec 16) :
    (sext32 v).toNat = if v.toNat < 0x8000 then v.toNat else v.toNat + 0xFFFF0000 := by
  have := v.isLt
  simp only [sext32, BitVec.toNat_signExtend, BitVec.toNat_setWidth, BitVec.msb_eq_decide]
  by_cases h : v.toNat < 0x8000
  · have h' : ¬ (2 ^ (16 - 1) ≤ v.toNat) := by omega
    simp only [h, h', decide_false, Bool.false_eq_true, if_true, if_false]
    omega
  · have h' : 2 ^ (16 - 1) ≤ v.toNat := by omega
    simp only [h, h', decide_true, if_true, if_false]
    omega

/-- `sext_32` keeps the signed value (R12, R97). -/
theorem sext32_toInt (v : BitVec 16) : (sext32 v).toInt = v.toInt := by
  simp [sext32, BitVec.toInt_signExtend_of_le]

/-- A sign-extended immediate is a well-formed one. -/
theorem immediateOk_sext32 (v : BitVec 16) : immediateOk (sext32 v) = true := by
  have := v.isLt
  simp only [immediateOk, sext32_toNat, Bool.or_eq_true, decide_eq_true_eq]
  split <;> omega

/-- A well-formed immediate is the sign extension of its own low half. -/
theorem sext32_low_of_ok {imm : Word} (h : immediateOk imm = true) :
    sext32 (imm.extractLsb' 0 16) = imm := by
  have := imm.isLt
  apply BitVec.eq_of_toNat_eq
  simp only [immediateOk, Bool.or_eq_true, decide_eq_true_eq] at h
  simp only [sext32_toNat, BitVec.extractLsb'_toNat, Nat.shiftRight_zero]
  split <;> omega

/-- The canonical register-form word of R115. -/
theorem registerWord_toNat (rs rt rd : RegIdx) (f : BitVec 6) :
    (registerWord rs rt rd f).toNat =
      rs.toNat * 2 ^ 21 + rt.toNat * 2 ^ 16 + rd.toNat * 2 ^ 11 + f.toNat := by
  have h1 := rs.isLt
  have h2 := rt.isLt
  have h3 := rd.isLt
  have h4 := f.isLt
  simp only [registerWord, BitVec.toNat_append]
  rw [← Nat.shiftLeft_add_eq_or_of_lt h1, ← Nat.shiftLeft_add_eq_or_of_lt h2,
    ← Nat.shiftLeft_add_eq_or_of_lt h3, ← Nat.shiftLeft_add_eq_or_of_lt (0 : BitVec 5).isLt,
    ← Nat.shiftLeft_add_eq_or_of_lt h4]
  simp only [Nat.shiftLeft_eq, BitVec.ofNat_eq_ofNat, BitVec.toNat_ofNat]
  omega

/-- The memory-form word of R115. -/
theorem memoryWord_toNat (op : BitVec 6) (rs rt : RegIdx) (imm : Word) :
    (memoryWord op rs rt imm).toNat =
      op.toNat * 2 ^ 26 + rs.toNat * 2 ^ 21 + rt.toNat * 2 ^ 16 + imm.toNat % 2 ^ 16 := by
  have h1 := rs.isLt
  have h2 := rt.isLt
  have h3 := (imm.extractLsb' 0 16).isLt
  simp only [memoryWord, BitVec.toNat_append]
  rw [← Nat.shiftLeft_add_eq_or_of_lt h1, ← Nat.shiftLeft_add_eq_or_of_lt h2,
    ← Nat.shiftLeft_add_eq_or_of_lt h3]
  simp only [Nat.shiftLeft_eq, BitVec.extractLsb'_toNat, Nat.shiftRight_zero]
  omega

section registerWord
variable (rs rt rd : RegIdx) (f : BitVec 6)

@[simp] theorem opcodeOf_registerWord : opcodeOf (registerWord rs rt rd f) = 0 := by
  have := rs.isLt; have := rt.isLt; have := rd.isLt; have := f.isLt
  apply BitVec.eq_of_toNat_eq
  rw [opcodeOf_toNat, registerWord_toNat]
  simp only [BitVec.ofNat_eq_ofNat, BitVec.toNat_ofNat]
  omega

@[simp] theorem rsOf_registerWord : rsOf (registerWord rs rt rd f) = rs := by
  have := rs.isLt; have := rt.isLt; have := rd.isLt; have := f.isLt
  apply BitVec.eq_of_toNat_eq
  rw [rsOf_toNat, registerWord_toNat]
  omega

@[simp] theorem rtOf_registerWord : rtOf (registerWord rs rt rd f) = rt := by
  have := rs.isLt; have := rt.isLt; have := rd.isLt; have := f.isLt
  apply BitVec.eq_of_toNat_eq
  rw [rtOf_toNat, registerWord_toNat]
  omega

@[simp] theorem rdOf_registerWord : rdOf (registerWord rs rt rd f) = rd := by
  have := rs.isLt; have := rt.isLt; have := rd.isLt; have := f.isLt
  apply BitVec.eq_of_toNat_eq
  rw [rdOf_toNat, registerWord_toNat]
  omega

@[simp] theorem functOf_registerWord : functOf (registerWord rs rt rd f) = f := by
  have := rs.isLt; have := rt.isLt; have := rd.isLt; have := f.isLt
  apply BitVec.eq_of_toNat_eq
  rw [functOf_toNat, registerWord_toNat]
  omega

end registerWord

section memoryWord
variable (op : BitVec 6) (rs rt : RegIdx) (imm : Word)

@[simp] theorem opcodeOf_memoryWord : opcodeOf (memoryWord op rs rt imm) = op := by
  have := op.isLt; have := rs.isLt; have := rt.isLt
  apply BitVec.eq_of_toNat_eq
  rw [opcodeOf_toNat, memoryWord_toNat]
  omega

@[simp] theorem rsOf_memoryWord : rsOf (memoryWord op rs rt imm) = rs := by
  have := op.isLt; have := rs.isLt; have := rt.isLt
  apply BitVec.eq_of_toNat_eq
  rw [rsOf_toNat, memoryWord_toNat]
  omega

@[simp] theorem rtOf_memoryWord : rtOf (memoryWord op rs rt imm) = rt := by
  have := op.isLt; have := rs.isLt; have := rt.isLt
  apply BitVec.eq_of_toNat_eq
  rw [rtOf_toNat, memoryWord_toNat]
  omega

@[simp] theorem imm16Of_memoryWord :
    imm16Of (memoryWord op rs rt imm) = imm.extractLsb' 0 16 := by
  have := op.isLt; have := rs.isLt; have := rt.isLt
  apply BitVec.eq_of_toNat_eq
  rw [imm16Of_toNat, memoryWord_toNat, BitVec.extractLsb'_toNat, Nat.shiftRight_zero]
  omega

end memoryWord

/-- The opcode field by number (30_encoding.md R93). -/
theorem opcodeOf_eq_iff {w : Word} {n : Nat} (hn : n < 64) :
    opcodeOf w = BitVec.ofNat 6 n ↔ w.toNat / 2 ^ 26 = n := by
  have := w.isLt
  rw [← BitVec.toNat_inj, opcodeOf_toNat]
  simp only [BitVec.toNat_ofNat]
  omega

/-- The funct field by number (R96). -/
theorem functOf_eq_iff {w : Word} {n : Nat} (hn : n < 64) :
    functOf w = BitVec.ofNat 6 n ↔ w.toNat % 2 ^ 6 = n := by
  rw [← BitVec.toNat_inj, functOf_toNat]
  simp only [BitVec.toNat_ofNat]
  omega

theorem rsOf_eq (w : Word) : rsOf w = BitVec.ofNat 5 (w.toNat / 2 ^ 21) := by
  apply BitVec.eq_of_toNat_eq
  rw [rsOf_toNat, BitVec.toNat_ofNat]
theorem rtOf_eq (w : Word) : rtOf w = BitVec.ofNat 5 (w.toNat / 2 ^ 16) := by
  apply BitVec.eq_of_toNat_eq
  rw [rtOf_toNat, BitVec.toNat_ofNat]
theorem rdOf_eq (w : Word) : rdOf w = BitVec.ofNat 5 (w.toNat / 2 ^ 11) := by
  apply BitVec.eq_of_toNat_eq
  rw [rdOf_toNat, BitVec.toNat_ofNat]

/-- Two words with one field have its bits in common (R11). -/
theorem getLsbD_eq_of_field {n lo : Nat} {w w' : Word}
    (h : w.extractLsb' lo n = w'.extractLsb' lo n) {k : Nat} (h1 : lo ≤ k) (h2 : k < lo + n) :
    w.getLsbD k = w'.getLsbD k := by
  have := congrArg (fun v => v.getLsbD (k - lo)) h
  simpa only [BitVec.getLsbD_extractLsb', show k - lo < n by omega, decide_true, Bool.true_and,
    show lo + (k - lo) = k by omega] using this

/-- The masks of the register form look at opcode and funct only (R101 to R103). -/
theorem registerMask_iff (w : Word) {n : Nat} (hn : n < 64) :
    w &&& 0xFC00003F = BitVec.ofNat 32 n ↔ opcodeOf w = 0 ∧ functOf w = BitVec.ofNat 6 n := by
  have hm : ∀ i, i < 32 →
      (0xFC00003F : Word).getLsbD i = (decide (i < 6) || decide (26 ≤ i)) := by decide
  have hhi : ∀ i, 6 ≤ i → n.testBit i = false := fun i hi =>
    Nat.testBit_lt_two_pow (lt_of_lt_of_le (show n < 2 ^ 6 by omega)
      (Nat.pow_le_pow_right (by omega) hi))
  constructor
  · intro h
    have hb : ∀ i, i < 32 →
        (w.getLsbD i && (decide (i < 6) || decide (26 ≤ i))) = n.testBit i := by
      intro i hi
      have := congrArg (fun v => v.getLsbD i) h
      simpa only [BitVec.getLsbD_and, hm i hi, BitVec.getLsbD_ofNat, hi, decide_true,
        Bool.true_and] using this
    constructor <;> apply BitVec.eq_of_getLsbD_eq <;> intro i hi
    · have := hb (26 + i) (by omega)
      rw [hhi _ (by omega), show decide (26 ≤ 26 + i) = true by simp, Bool.or_true,
        Bool.and_true] at this
      simp only [opcodeOf, BitVec.getLsbD_extractLsb', hi, decide_true, Bool.true_and, this,
        BitVec.ofNat_eq_ofNat, BitVec.getLsbD_zero]
    · have := hb i (by omega)
      rw [show decide (i < 6) = true by simp [hi], Bool.true_or, Bool.and_true] at this
      simp only [functOf, BitVec.getLsbD_extractLsb', hi, decide_true, Bool.true_and,
        Nat.zero_add, this, BitVec.getLsbD_ofNat]
  · rintro ⟨h1, h2⟩
    apply BitVec.eq_of_getLsbD_eq
    intro i hi
    rw [BitVec.getLsbD_and, hm i hi, BitVec.getLsbD_ofNat]
    by_cases h6 : i < 6
    · have := congrArg (fun v => v.getLsbD i) h2
      simp only [functOf, BitVec.getLsbD_extractLsb', h6, decide_true, Bool.true_and,
        Nat.zero_add, BitVec.getLsbD_ofNat] at this
      simp only [this, h6, hi, decide_true, Bool.true_or, Bool.and_true, Bool.true_and]
    · rw [hhi i (by omega), Bool.and_false]
      by_cases h26 : 26 ≤ i
      · have := congrArg (fun v => v.getLsbD (i - 26)) h1
        simp only [opcodeOf, BitVec.getLsbD_extractLsb', show i - 26 < 6 by omega, decide_true,
          Bool.true_and, show 26 + (i - 26) = i by omega, BitVec.ofNat_eq_ofNat,
          BitVec.getLsbD_zero] at this
        rw [this, Bool.false_and]
      · simp only [h6, h26, decide_false, Bool.or_self, Bool.and_false]

/-- The mask of the memory form looks at the opcode only (R104, R105). -/
theorem memoryMask_iff (w : Word) (n : Nat) :
    w &&& 0xFC000000 = BitVec.ofNat 32 (n * 2 ^ 26) ↔ opcodeOf w = BitVec.ofNat 6 n := by
  have hm : ∀ i, i < 32 → (0xFC000000 : Word).getLsbD i = decide (26 ≤ i) := by decide
  have hn : ∀ i, i < 32 → (BitVec.ofNat 32 (n * 2 ^ 26)).getLsbD i =
      (decide (26 ≤ i) && n.testBit (i - 26)) := by
    intro i hi
    rw [BitVec.getLsbD_ofNat, Nat.testBit_mul_two_pow]
    simp only [hi, decide_true, Bool.true_and]
  constructor
  · intro h
    apply BitVec.eq_of_getLsbD_eq
    intro i hi
    have := congrArg (fun v => v.getLsbD (26 + i)) h
    simp only [BitVec.getLsbD_and] at this
    rw [hm _ (by omega), hn _ (by omega), show decide (26 ≤ 26 + i) = true by simp, Bool.and_true,
      Bool.true_and, Nat.add_sub_cancel_left] at this
    simp only [opcodeOf, BitVec.getLsbD_extractLsb', hi, decide_true, Bool.true_and, this,
      BitVec.getLsbD_ofNat]
  · intro h
    apply BitVec.eq_of_getLsbD_eq
    intro i hi
    rw [BitVec.getLsbD_and, hm i hi, hn i hi]
    by_cases h26 : 26 ≤ i
    · have := congrArg (fun v => v.getLsbD (i - 26)) h
      simp only [opcodeOf, BitVec.getLsbD_extractLsb', show i - 26 < 6 by omega, decide_true,
        Bool.true_and, show 26 + (i - 26) = i by omega, BitVec.getLsbD_ofNat] at this
      rw [this, Bool.and_comm]
    · simp only [h26, decide_false, Bool.and_false, Bool.false_and]

/-- A word of one of the five forms, by the kind it decodes to (R100). -/
theorem decode_cases (w : Word) :
    (opcodeOf w = 0 ∧ functOf w = 32 ∧ decode w = .add (rsOf w) (rtOf w) (rdOf w)) ∨
    (opcodeOf w = 0 ∧ functOf w = 34 ∧ decode w = .sub (rsOf w) (rtOf w) (rdOf w)) ∨
    (opcodeOf w = 0 ∧ functOf w = 38 ∧ decode w = .xor (rsOf w) (rtOf w) (rdOf w)) ∨
    (opcodeOf w = 35 ∧ decode w = .lw (rsOf w) (rtOf w) (sext32 (imm16Of w))) ∨
    (opcodeOf w = 43 ∧ decode w = .sw (rsOf w) (rtOf w) (sext32 (imm16Of w))) ∨
    ((opcodeOf w = 0 → functOf w ≠ 32 ∧ functOf w ≠ 34 ∧ functOf w ≠ 38) ∧
      opcodeOf w ≠ 35 ∧ opcodeOf w ≠ 43 ∧ decode w = .unrecognized) := by
  by_cases h0 : opcodeOf w = 0
  · have h5 : opcodeOf w ≠ 35 ∧ opcodeOf w ≠ 43 := by rw [h0]; decide
    by_cases h1 : functOf w = 32
    · exact .inl ⟨h0, h1, by rw [decode, if_pos h0, if_pos h1]⟩
    by_cases h2 : functOf w = 34
    · exact .inr (.inl ⟨h0, h2, by rw [decode, if_pos h0, if_neg h1, if_pos h2]⟩)
    by_cases h3 : functOf w = 38
    · exact .inr (.inr (.inl ⟨h0, h3, by rw [decode, if_pos h0, if_neg h1, if_neg h2, if_pos h3]⟩))
    exact .inr (.inr (.inr (.inr (.inr ⟨fun _ => ⟨h1, h2, h3⟩, h5.1, h5.2, by
      rw [decode, if_pos h0, if_neg h1, if_neg h2, if_neg h3]⟩))))
  by_cases h1 : opcodeOf w = 35
  · exact .inr (.inr (.inr (.inl ⟨h1, by rw [decode, if_neg h0, if_pos h1]⟩)))
  by_cases h2 : opcodeOf w = 43
  · exact .inr (.inr (.inr (.inr (.inl ⟨h2, by rw [decode, if_neg h0, if_neg h1, if_pos h2]⟩))))
  exact .inr (.inr (.inr (.inr (.inr ⟨fun h => absurd h h0, h1, h2, by
    rw [decode, if_neg h0, if_neg h1, if_neg h2]⟩))))

end Sys2Proof
end

