-- ==== Sys2Proof/Laws/Memory.lean ====
section
/-! SUPPORT. The laws of the byte store: what a read gives after a write, and that every write keeps
the canonical form and stays where it was asked to. -/

namespace Sys2Proof.Machine

@[simp] theorem readByte_nil (a : Nat) : readByte [] a = Memory.unlisted := rfl

theorem readByte_filter_ne (m : Memory) (a b : Nat) :
    readByte (m.filter (fun c => decide (c.1 ≠ a))) b =
      if b = a then Memory.unlisted else readByte m b := by
  induction m with
  | nil => simp
  | cons c m ih =>
    obtain ⟨k, v⟩ := c
    by_cases hk : k = a
    · subst hk
      simp only [ne_eq, decide_not, decide_true, Bool.not_true,
        List.filter_cons, Bool.false_eq_true, if_false]
      simp only [ne_eq, decide_not] at ih
      rw [ih, readByte]
      split <;> simp_all
    · simp only [ne_eq, decide_not] at ih
      simp only [ne_eq, decide_not, List.filter_cons, hk, decide_false, Bool.not_false, if_true,
        readByte, ih]
      split <;> rename_i hb
      · subst hb; simp [hk]
      · rfl

theorem readByte_insertCell (m : Memory) (a b : Nat) (v : Byte)
    (hm : ∀ c ∈ m, c.1 ≠ a) :
    readByte (insertCell m a v) b = if b = a then v else readByte m b := by
  induction m with
  | nil => simp [insertCell, readByte]
  | cons c m ih =>
    obtain ⟨k, w⟩ := c
    have hk : k ≠ a := hm (k, w) (by simp)
    have ih := ih (fun c hc => hm c (by simp [hc]))
    by_cases hlt : a < k
    · simp [insertCell, hlt, readByte]
    · simp only [insertCell, hlt, if_false, readByte, ih]
      by_cases hb : b = k
      · subst hb; simp [hk]
      · simp [hb]

/-- What a byte reads as after a byte write (20_memory.md R62 (a), (b)). -/
theorem readByte_writeByte (m : Memory) (a b : Nat) (v : Byte) :
    readByte (writeByte m a v) b = if b = a then v else readByte m b := by
  unfold writeByte
  by_cases hv : v = Memory.unlisted
  · simp only [hv, if_true]; exact readByte_filter_ne m a b
  · simp only [hv, if_false]
    rw [readByte_insertCell _ _ _ _ (by simp), readByte_filter_ne]
    split <;> simp_all

theorem mem_insertCell {m : Memory} {a : Nat} {v : Byte} {c : Host.Cell}
    (h : c ∈ insertCell m a v) : c = (a, v) ∨ c ∈ m := by
  induction m with
  | nil => simpa [insertCell] using h
  | cons d m ih =>
    obtain ⟨k, w⟩ := d
    by_cases hlt : a < k
    · simpa [insertCell, hlt] using h
    · simp only [insertCell, hlt, if_false, List.mem_cons] at h
      rcases h with h | h
      · exact .inr (by simp [h])
      · rcases ih h with h | h
        · exact .inl h
        · exact .inr (by simp [h])

/-- Every cell of a written memory is the written one or an old one. -/
theorem mem_writeByte {m : Memory} {a : Nat} {v : Byte} {c : Host.Cell}
    (h : c ∈ writeByte m a v) : c = (a, v) ∨ c ∈ m := by
  unfold writeByte at h
  by_cases hv : v = Memory.unlisted
  · simp only [hv, if_true] at h; exact .inr (List.mem_of_mem_filter h)
  · simp only [hv, if_false] at h
    exact (mem_insertCell h).imp_right List.mem_of_mem_filter

theorem insertCell_sorted {m : Memory} {a : Nat} {v : Byte}
    (hm : m.Pairwise (fun c d => c.1 < d.1)) (ha : ∀ c ∈ m, c.1 ≠ a) :
    (insertCell m a v).Pairwise (fun c d => c.1 < d.1) := by
  induction m with
  | nil => simp [insertCell]
  | cons c m ih =>
    obtain ⟨k, w⟩ := c
    rw [List.pairwise_cons] at hm
    have hk : k ≠ a := ha (k, w) (by simp)
    by_cases hlt : a < k
    · simp only [insertCell, hlt, if_true, List.pairwise_cons, List.mem_cons]
      refine ⟨?_, hm.1, hm.2⟩
      rintro d (rfl | hd)
      · exact hlt
      · exact lt_trans hlt (hm.1 d hd)
    · simp only [insertCell, hlt, if_false, List.pairwise_cons]
      refine ⟨fun d hd => ?_, ih hm.2 (fun c hc => ha c (by simp [hc]))⟩
      rcases mem_insertCell hd with rfl | hd
      · show k < a
        omega
      · exact hm.1 d hd

/-- A byte write keeps the canonical form. -/
theorem writeByte_wf {m : Memory} (hm : m.wf) (a : Nat) (v : Byte) : (writeByte m a v).wf := by
  have hs : (m.filter (fun c => decide (c.1 ≠ a))).Pairwise (fun c d => c.1 < d.1) :=
    hm.1.filter _
  refine ⟨?_, fun c hc => ?_⟩
  · unfold writeByte
    by_cases hv : v = Memory.unlisted
    · simpa only [hv, if_true] using hs
    · simp only [hv, if_false]
      exact insertCell_sorted hs (by simp)
  · by_cases hv : v = Memory.unlisted
    · simp only [writeByte, hv, if_true] at hc
      exact hm.2 c (List.mem_of_mem_filter hc)
    · rcases mem_writeByte hc with rfl | hc
      · exact hv
      · exact hm.2 c hc

/-- A word write keeps the canonical form. -/
theorem writeWord_wf {m : Memory} (hm : m.wf) (a : Nat) (v : Word) : (writeWord m a v).wf :=
  writeByte_wf (writeByte_wf (writeByte_wf (writeByte_wf hm _ _) _ _) _ _) _ _

/-- Every cell of a memory after a word write is one of the four written or an old one. -/
theorem mem_writeWord {m : Memory} {a : Nat} {v : Word} {c : Host.Cell}
    (h : c ∈ writeWord m a v) : (a ≤ c.1 ∧ c.1 < a + 4) ∨ c ∈ m := by
  unfold writeWord at h
  rcases mem_writeByte h with rfl | h
  · left; simp
  rcases mem_writeByte h with rfl | h
  · left; simp
  rcases mem_writeByte h with rfl | h
  · left; simp
  rcases mem_writeByte h with rfl | h
  · left; simp
  · exact .inr h

/-- Reset memory is canonical. -/
theorem nil_wf : Memory.wf [] := by simp [Memory.wf]

/-- What a byte reads as after a word write (20_memory.md R59). -/
theorem readByte_writeWord (m : Memory) (a b : Nat) (v : Word) :
    readByte (writeWord m a v) b =
      if b = a + 3 then byteOf v 3 else if b = a + 2 then byteOf v 2
      else if b = a + 1 then byteOf v 1 else if b = a then byteOf v 0 else readByte m b := by
  simp only [writeWord, readByte_writeByte]

/-- A byte of the written word (R59). -/
theorem readByte_writeWord_inside (m : Memory) (a : Nat) (v : Word) {k : Nat} (hk : k < 4) :
    readByte (writeWord m a v) (a + k) = byteOf v k := by
  match k, hk with
  | 0, _ => simp [readByte_writeWord]
  | 1, _ => simp [readByte_writeWord]
  | 2, _ => simp [readByte_writeWord]
  | 3, _ => simp [readByte_writeWord]

/-- A byte outside the written word (R62 (b)). -/
theorem readByte_writeWord_outside (m : Memory) {a b : Nat} (v : Word) (h : b < a ∨ a + 4 ≤ b) :
    readByte (writeWord m a v) b = readByte m b := by
  rw [readByte_writeWord, if_neg, if_neg, if_neg, if_neg] <;> omega

/-- The number a word assembled from four bytes is (R58). -/
theorem wordOf_toNat (b0 b1 b2 b3 : Byte) :
    (wordOf b0 b1 b2 b3).toNat =
      b0.toNat + b1.toNat * 2 ^ 8 + b2.toNat * 2 ^ 16 + b3.toNat * 2 ^ 24 := by
  have h0 := b0.isLt
  have h1 := b1.isLt
  have h2 := b2.isLt
  simp only [wordOf, BitVec.toNat_append]
  rw [← Nat.shiftLeft_add_eq_or_of_lt h2, ← Nat.shiftLeft_add_eq_or_of_lt h1,
    ← Nat.shiftLeft_add_eq_or_of_lt h0]
  simp only [Nat.shiftLeft_eq]
  omega

/-- Byte `k` of a word as a number (R59). -/
theorem byteOf_toNat (v : Word) (k : Nat) :
    (byteOf v k).toNat = v.toNat / 2 ^ (8 * k) % 2 ^ 8 := by
  simp [byteOf, BitVec.extractLsb'_toNat, Nat.shiftRight_eq_div_pow]

/-- Taking a word apart and putting it together (R58, R59). -/
@[simp] theorem wordOf_byteOf (v : Word) :
    wordOf (byteOf v 0) (byteOf v 1) (byteOf v 2) (byteOf v 3) = v := by
  apply BitVec.eq_of_toNat_eq
  have := v.isLt
  simp only [wordOf_toNat, byteOf_toNat]
  omega

/-- Memory that nothing has written reads 0 (R56). -/
@[simp] theorem readWord_nil (a : Nat) : readWord [] a = 0 := by
  simp only [readWord, readByte_nil]
  decide

/-- Read after write at the same address (R62 (a)). -/
theorem readWord_writeWord_same (m : Memory) (a : Nat) (v : Word) :
    readWord (writeWord m a v) a = v := by
  simp [readWord, readByte_writeWord]

/-- A word that does not meet the written one is unchanged. -/
theorem readWord_writeWord_apart (m : Memory) {a b : Nat} (v : Word)
    (h : b + 4 ≤ a ∨ a + 4 ≤ b) : readWord (writeWord m a v) b = readWord m b := by
  simp only [readWord]
  rw [readByte_writeWord_outside, readByte_writeWord_outside, readByte_writeWord_outside,
    readByte_writeWord_outside] <;> omega

/-- A word read is the little-endian number of its four bytes (R58). -/
theorem readWord_toNat (m : Memory) (a : Nat) : (readWord m a).toNat = littleEndian m a :=
  wordOf_toNat _ _ _ _

end Sys2Proof.Machine
end

