-- ==== Sys2Proof/Laws/State.lean ====
section
/-! SUPPORT. One small lemma per field per update of `State`, so that no later proof unfolds a record
update. -/

namespace Sys2Proof.Machine

@[simp] theorem setReg_pc (s : State) (i : RegIdx) (v : Word) : (setReg s i v).pc = s.pc := rfl
@[simp] theorem setReg_mem (s : State) (i : RegIdx) (v : Word) : (setReg s i v).mem = s.mem := rfl
@[simp] theorem setReg_params (s : State) (i : RegIdx) (v : Word) :
    (setReg s i v).params = s.params := rfl

@[simp] theorem advancePc_pc (s : State) : (advancePc s).pc = s.pc + 4 := rfl
@[simp] theorem advancePc_mem (s : State) : (advancePc s).mem = s.mem := rfl
@[simp] theorem advancePc_regs (s : State) : (advancePc s).regs = s.regs := rfl
@[simp] theorem advancePc_params (s : State) : (advancePc s).params = s.params := rfl

@[simp] theorem getReg_advancePc (s : State) (i : RegIdx) :
    getReg (advancePc s) i = getReg s i := rfl
@[simp] theorem getReg_withMem (s : State) (m : Memory) (i : RegIdx) :
    getReg { s with mem := m } i = getReg s i := rfl
@[simp] theorem getReg_withPc (s : State) (a : Word) (i : RegIdx) :
    getReg { s with pc := a } i = getReg s i := rfl
@[simp] theorem getReg_withParams (s : State) (p : Params) (i : RegIdx) :
    getReg { s with params := p } i = getReg s i := rfl

/-- Reading the register just written. -/
@[simp] theorem getReg_setReg_same (s : State) (i : RegIdx) (v : Word) :
    getReg (setReg s i v) i = v := by
  simp [getReg, setReg]

/-- Reading another register (10_state.md R26). -/
@[simp] theorem getReg_setReg_other (s : State) {i q : RegIdx} (v : Word) (h : q ≠ i) :
    getReg (setReg s i v) q = getReg s q := by
  have : i.toNat ≠ q.toNat := fun e => h (BitVec.eq_of_toNat_eq e.symm)
  simp [getReg, setReg, this]

@[simp] theorem placeWord_regs (s : State) (v : Word) : (placeWord s v).regs = s.regs := rfl
@[simp] theorem placeWord_params (s : State) (v : Word) : (placeWord s v).params = s.params := rfl

@[simp] theorem resetWith_pc (p : Params) : (State.resetWith p).pc = p.instrBase := rfl
@[simp] theorem resetWith_mem (p : Params) : (State.resetWith p).mem = [] := rfl
@[simp] theorem resetWith_params (p : Params) : (State.resetWith p).params = p := rfl
@[simp] theorem getReg_resetWith (p : Params) (i : RegIdx) : getReg (State.resetWith p) i = 0 := by
  simp [getReg, State.resetWith]

end Sys2Proof.Machine
end

