-- ==== Sys2Proof/Laws/Ops.lean ====
section
/-! SUPPORT. One lemma per shared operation that says everything it can do: admission, MemRead,
MemWrite, the fetch, and the operand forms. -/

namespace Sys2Proof.Machine

/-- Admission, with the extents of the two regions written out (20_memory.md R57). -/
theorem admitted_iff (p : Params) (a : Word) :
    admitted p a = true ↔ WordInRegion p a.toNat := by
  simp [admitted, Params.regions, regionAdmits, Config.dataRegion, Params.instrRegion]

theorem not_admitted_iff (p : Params) (a : Word) :
    admitted p a = false ↔ ¬ WordInRegion p a.toNat := by
  rw [← admitted_iff, Bool.not_eq_true]

/-- A byte exists where one of the two regions contains it (R52, R53). -/
theorem byteExists_iff (p : Params) (a : Nat) :
    byteExists p a = true ↔
      (Config.dataBase ≤ a ∧ a < Config.dataBase + Config.dataSize) ∨
      (p.instrBase.toNat ≤ a ∧ a < p.instrBase.toNat + p.instrSize) := by
  simp [byteExists, Params.regions, regionContains, Config.dataRegion, Params.instrRegion]

/-- The four bytes of an admitted access exist. -/
theorem byteExists_of_admitted {p : Params} {a : Word} (h : admitted p a = true) {b : Nat}
    (h1 : a.toNat ≤ b) (h2 : b < a.toNat + 4) : byteExists p b = true := by
  rw [byteExists_iff]
  rcases (admitted_iff p a).1 h with ⟨h3, h4⟩ | ⟨h3, h4⟩
  · left; constructor <;> omega
  · right; constructor <;> omega

/-- The first word of the instruction region is admitted for well-formed parameters. -/
theorem admitted_instrBase {p : Params} (h : p.WellFormed) : admitted p p.instrBase = true := by
  obtain ⟨_, h2, h3, _, _⟩ := h
  rw [admitted_iff]
  right
  constructor <;> omega

/-- MemRead where it is admitted (R58). -/
theorem memRead_ok {s : State} {a : Word} (h : admitted s.params a = true) :
    memRead s a = .ok (readWord s.mem a.toNat) := by
  simp [memRead, h]

/-- MemRead where it is not (R60). -/
theorem memRead_error {s : State} {a : Word} (h : admitted s.params a = false) :
    memRead s a = .error (.outOfRange a) := by
  simp [memRead, h]

/-- Everything MemRead can answer with a value. -/
theorem memRead_eq_ok {s : State} {a v : Word} :
    memRead s a = .ok v ↔ admitted s.params a = true ∧ v = readWord s.mem a.toNat := by
  cases h : admitted s.params a <;> simp [memRead, h, eq_comm]

/-- Everything MemRead can answer with an error. -/
theorem memRead_eq_error {s : State} {a : Word} {e : Fault} :
    memRead s a = .error e ↔ admitted s.params a = false ∧ e = .outOfRange a := by
  cases h : admitted s.params a <;> simp [memRead, h, eq_comm]

/-- MemWrite where it is admitted (R59). -/
theorem memWrite_ok {s : State} {a : Word} (v : Word) (h : admitted s.params a = true) :
    memWrite s a v = .ok { s with mem := writeWord s.mem a.toNat v } := by
  simp [memWrite, h]

/-- MemWrite where it is not: nothing is written (R66). -/
theorem memWrite_error {s : State} {a : Word} (v : Word) (h : admitted s.params a = false) :
    memWrite s a v = .error (.outOfRange a) := by
  simp [memWrite, h]

/-- Everything MemWrite can answer with a state. -/
theorem memWrite_eq_ok {s t : State} {a v : Word} :
    memWrite s a v = .ok t ↔
      admitted s.params a = true ∧ t = { s with mem := writeWord s.mem a.toNat v } := by
  cases h : admitted s.params a <;> simp [memWrite, h, eq_comm]

/-- Everything MemWrite can answer with an error. -/
theorem memWrite_eq_error {s : State} {a v : Word} {e : Fault} :
    memWrite s a v = .error e ↔ admitted s.params a = false ∧ e = .outOfRange a := by
  cases h : admitted s.params a <;> simp [memWrite, h, eq_comm]

/-- MemRead at the address just written gives the value (20_memory.md R62 (a)). -/
theorem memRead_of_memWrite {s t : State} {a v : Word} (h : memWrite s a v = .ok t) :
    memRead t a = .ok v := by
  obtain ⟨ha, rfl⟩ := memWrite_eq_ok.1 h
  exact memRead_eq_ok.2 ⟨ha, (readWord_writeWord_same _ _ _).symm⟩

/-- The bytes outside the word just written are as before (R62 (b)). -/
theorem readByte_of_memWrite_outside {s t : State} {a v : Word} (h : memWrite s a v = .ok t) {b : Nat}
    (hb : b < a.toNat ∨ a.toNat + 4 ≤ b) : readByte t.mem b = readByte s.mem b := by
  obtain ⟨-, rfl⟩ := memWrite_eq_ok.1 h
  exact readByte_writeWord_outside _ _ hb

/-- The bytes of the word just written are its bytes, the lowest address the lowest byte (R62 (c)). -/
theorem readByte_of_memWrite_inside {s t : State} {a v : Word} (h : memWrite s a v = .ok t) {k : Nat}
    (hk : k < 4) : readByte t.mem (a.toNat + k) = byteOf v k := by
  obtain ⟨-, rfl⟩ := memWrite_eq_ok.1 h
  exact readByte_writeWord_inside _ _ _ hk

/-- Everything the fetch can answer with a word (40_execution_cycle.md R131). -/
theorem fetch_eq_ok {s : State} {w : Word} :
    fetch s = .ok w ↔ admitted s.params s.pc = true ∧ w = readWord s.mem s.pc.toNat :=
  memRead_eq_ok

/-- Everything the fetch can answer with an error (R131). -/
theorem fetch_eq_error {s : State} {e : Fault} :
    fetch s = .error e ↔ admitted s.params s.pc = false ∧ e = .outOfRange s.pc :=
  memRead_eq_error

/-- The word just placed is the one the next fetch reads. -/
theorem fetch_placeWord {s : State} (h : s.params.WellFormed) (v : Word) :
    fetch (placeWord s v) = .ok v := by
  rw [fetch_eq_ok]
  cases hp : admitted s.params s.pc
  · simp [placeWord, hp, admitted_instrBase h, readWord_writeWord_same]
  · simp [placeWord, hp, readWord_writeWord_same]

/-- A word write touches bytes of the regions only, where it is admitted. -/
theorem writeWord_inRegions {s : State} (hm : MemoryInRegions s) {a : Word} (v : Word)
    (h : admitted s.params a = true) :
    ∀ c ∈ writeWord s.mem a.toNat v, byteExists s.params c.1 = true := by
  intro c hc
  rcases mem_writeWord hc with ⟨h1, h2⟩ | hc
  · exact byteExists_of_admitted h h1 h2
  · exact hm c hc

/-- The advance as a number (R137). -/
theorem advancePc_toNat (s : State) : (advancePc s).pc.toNat = (s.pc.toNat + 4) % 2 ^ 32 := by
  simp [BitVec.toNat_add]

end Sys2Proof.Machine
end

