-- ==== Sys2Proof/Laws/Exec.lean ====
section
/-! SUPPORT. What each meaning, `exec` and `step` can do, said once: provers cite these and unfold
nothing. -/

namespace Sys2Proof.Machine

/-- LW, by whether the address is admitted (42_load_store.md R170, R172). -/
theorem execLw_eq (rs rt : RegIdx) (imm : Word) (s : State) :
    execLw rs rt imm s =
      if admitted s.params (effectiveAddress s rs imm) then
        .next (advancePc (setReg s rt (readWord s.mem (effectiveAddress s rs imm).toNat)))
      else .fault (.outOfRange (effectiveAddress s rs imm)) := by
  cases h : admitted s.params (effectiveAddress s rs imm) <;>
    simp [execLw, memRead, h, raise]

/-- SW, by whether the address is admitted (R175, R177). -/
theorem execSw_eq (rs rt : RegIdx) (imm : Word) (s : State) :
    execSw rs rt imm s =
      if admitted s.params (effectiveAddress s rs imm) then
        .next (advancePc { s with
          mem := writeWord s.mem (effectiveAddress s rs imm).toNat (getReg s rt) })
      else .fault (.outOfRange (effectiveAddress s rs imm)) := by
  cases h : admitted s.params (effectiveAddress s rs imm) <;>
    simp [execSw, memWrite, h, raise]

/-- UNRECOGNIZED, by whether its word was fetched (43_unrecognized.md R190). -/
theorem execUnrecognized_eq (s : State) :
    execUnrecognized s =
      if admitted s.params s.pc then
        .fault (.unsupportedInstruction (readWord s.mem s.pc.toNat))
      else .fault (.outOfRange s.pc) := by
  cases h : admitted s.params s.pc <;> simp [execUnrecognized, fetch, memRead, h, raise]

/-- Everything `exec` can do when it answers a next state: one register write, or one word stored at
an admitted address, and the pc advance (40_execution_cycle.md R135). -/
theorem exec_next_cases {i : Instr} {s t : State} (h : exec i s = .next t) :
    (∃ r v, t = advancePc (setReg s r v)) ∨
    (∃ a v, admitted s.params a = true ∧
      t = advancePc { s with mem := writeWord s.mem a.toNat v }) := by
  cases i with
  | add rs rt rd => exact .inl ⟨rt, _, (Host.Outcome.next.inj h).symm⟩
  | sub rs rt rd => exact .inl ⟨rt, _, (Host.Outcome.next.inj h).symm⟩
  | xor rs rt rd => exact .inl ⟨rt, _, (Host.Outcome.next.inj h).symm⟩
  | lw rs rt imm =>
    rw [exec, execLw_eq] at h
    split at h
    · exact .inl ⟨rt, _, (Host.Outcome.next.inj h).symm⟩
    · cases h
  | sw rs rt imm =>
    rw [exec, execSw_eq] at h
    split at h
    · exact .inr ⟨_, _, ‹_›, (Host.Outcome.next.inj h).symm⟩
    · cases h
  | unrecognized =>
    rw [exec, execUnrecognized_eq] at h
    split at h <;> cases h

/-- No meaning answers a refusal. -/
theorem exec_not_refused (i : Instr) (s : State) (r : Refusal) : exec i s ≠ .refused r := by
  intro h
  cases i with
  | add rs rt rd => cases h
  | sub rs rt rd => cases h
  | xor rs rt rd => cases h
  | lw rs rt imm => rw [exec, execLw_eq] at h; split at h <;> cases h
  | sw rs rt imm => rw [exec, execSw_eq] at h; split at h <;> cases h
  | unrecognized => rw [exec, execUnrecognized_eq] at h; split at h <;> cases h

/-- A step whose word is fetched runs it (R130 to R134). -/
theorem step_of_admitted {s : State} (h : admitted s.params s.pc = true) :
    step s = exec (decode (readWord s.mem s.pc.toNat)) s := by
  simp [step, fetch, memRead, h]

/-- A step that fetches nothing ends with the fetch's error (R131). -/
theorem step_of_not_admitted {s : State} (h : admitted s.params s.pc = false) :
    step s = .fault (.outOfRange s.pc) := by
  simp [step, fetch, memRead, h, raise]

/-- Everything a step can do when it answers a next state (R135, R136). -/
theorem step_next_cases {s t : State} (h : step s = .next t) :
    (∃ r v, t = advancePc (setReg s r v)) ∨
    (∃ a v, admitted s.params a = true ∧
      t = advancePc { s with mem := writeWord s.mem a.toNat v }) := by
  cases hp : admitted s.params s.pc
  · rw [step_of_not_admitted hp] at h; cases h
  · rw [step_of_admitted hp] at h; exact exec_next_cases h

/-- One more step of the host's `run`, when it answers a next state. -/
theorem core_run_succ {k : Nat} {s t : State} (h : Sys2Proof.core.run (k + 1) s = .next t) :
    ∃ u, step s = .next u ∧ Sys2Proof.core.run k u = .next t := by
  have h := (Host.Core.run.eq_2 Sys2Proof.core s k).symm.trans h
  split at h
  · exact ⟨_, ‹_›, h⟩
  · cases h
  · cases h

end Sys2Proof.Machine
end

