-- ==== Sys2Proof/Laws/PerInstr.lean ====
section
/-! SUPPORT. Statements made for every instruction, as syntax: the encoder writes a word that the
decoder reads as the same kind, whatever the operands (30_encoding.md R98, R100, R115). -/

namespace Sys2Proof.Laws.KindRoundTrip

/-- The encoded word decodes to the instruction's own kind. -/
def Statement (i : Instr) : Prop := (decode (encode i)).kind = i.kind

theorem add (rs rt rd : RegIdx) : Statement (.add rs rt rd) := by
  simp [Statement, encode, decode, Instr.kind]

theorem sub (rs rt rd : RegIdx) : Statement (.sub rs rt rd) := by
  simp [Statement, encode, decode, Instr.kind]

theorem xor (rs rt rd : RegIdx) : Statement (.xor rs rt rd) := by
  simp [Statement, encode, decode, Instr.kind]

theorem lw (rs rt : RegIdx) (imm : Word) : Statement (.lw rs rt imm) := by
  simp [Statement, encode, decode, Instr.kind]

theorem sw (rs rt : RegIdx) (imm : Word) : Statement (.sw rs rt imm) := by
  simp [Statement, encode, decode, Instr.kind]

theorem unrecognized : Statement .unrecognized := rfl

end Sys2Proof.Laws.KindRoundTrip
end

