-- ==== Sys2Proof/Machine/Flags.lean ====
section
/-! DEFINITION. Flag computations: none. The hardware has no status flags, condition codes or
predicates (10_state.md R33), the ALU has no flag output (40_execution_cycle.md R141), and ADD, SUB
and XOR write none (41_arith_logic.md R146). The file is kept so that a reader who looks for flags
finds the rule that says there are none. -/
end

