-- ==== Sys2Proof/Tests/Slice0.lean ====
section
/-! SUPPORT. The model's own tests: well-formedness, decoding of words written out from the spec's
encodings, one step of each instruction with results from 95_test_vectors.md, and for every statement
with hypotheses a witness that meets them (`witness_…`, at the boundary values). -/

namespace Sys2Proof.Tests

open Sys2Proof.Machine

/-- Reset, with some registers and some memory words preset and the pc set (R241). -/
def stateWith (pc : Word) (regs : List (RegIdx × Word)) (words : List (Nat × Word)) : State :=
  let s := regs.foldl (fun s r => setReg s r.1 r.2) State.reset
  { s with pc := pc, mem := words.foldl (fun m w => writeWord m w.1 w.2) s.mem }

/-- The outcome is a next state with this property. -/
def nextHas (o : Result) (p : State → Bool) : Bool :=
  match o with
  | .next t => p t
  | .fault _ => false
  | .refused _ => false

/-- The outcome is this fault. -/
def faultIs (o : Result) (e : Fault) : Bool :=
  match o with
  | .next _ => false
  | .fault f => decide (f = e)
  | .refused _ => false

theorem exists_of_nextHas {o : Result} (h : nextHas o (fun _ => true) = true) : ∃ t, o = .next t := by
  cases o with
  | next t => exact ⟨t, rfl⟩
  | fault e => exact absurd h (by simp [nextHas])
  | refused r => exact absurd h (by simp [nextHas])

theorem eq_of_faultIs {o : Result} {e : Fault} (h : faultIs o e = true) : o = .fault e := by
  cases o with
  | next t => exact absurd h (by simp [faultIs])
  | fault f => simpa [faultIs] using h
  | refused r => exact absurd h (by simp [faultIs])

/-! ## Well-formedness: an ill-formed term for each check (R97) -/

theorem test_wf_refuses_lw_immediate : Instr.wf (.lw 1 2 0x00008000) = false := by decide
theorem test_wf_refuses_sw_immediate : Instr.wf (.sw 1 2 0xFFFF7FFF) = false := by decide

/-! ## Decoding: each row's word bit by bit, opcode, rs, rt, rd or imm16, 10:6, funct (R91, R92, R101 to
R106) -/

theorem test_decode_add : decode 0b00000001000010010000000000100000 = .add 8 9 0 := by decide
theorem test_decode_sub : decode 0b00000000010000110010011111100010 = .sub 2 3 4 := by decide
theorem test_decode_xor : decode 0b00000011111000000000100000100110 = .xor 31 0 1 := by decide
theorem test_decode_lw : decode 0b10001100001000101111111111111100 = .lw 1 2 0xFFFFFFFC := by decide
theorem test_decode_sw : decode 0b10101101000010010000000000000100 = .sw 8 9 4 := by decide
theorem test_decode_zero_word : decode 0 = .unrecognized := by decide
/-- Neighbours of the five forms (95_test_vectors.md table 2.1). -/
theorem test_decode_neighbours :
    decode 0x0109001F = .unrecognized ∧ decode 0x01090023 = .unrecognized ∧
    decode 0x01090027 = .unrecognized ∧ decode 0x88000000 = .unrecognized ∧
    decode 0xA8000000 = .unrecognized ∧ decode 0xFC000020 = .unrecognized := by decide
/-- `ADD r9, r8` lies in memory as 20 00 09 01 (R117). -/
theorem test_decode_bytes : decodeBytes [0x20, 0x00, 0x09, 0x01, 0xFF] = .ok (.add 8 9 0, [0xFF]) := by
  rfl
theorem test_decode_table_word : decodeTableWord 32 0x8D0A0004 = some (.lw 8 10 4) := by decide
/-- The assembler's words (R115). -/
theorem test_encode :
    encode (.add 8 9 0) = 0x01090020 ∧ encode (.sub 8 8 0) = 0x01080022 ∧
    encode (.xor 9 9 0) = 0x01290026 ∧ encode (.lw 0 1 0xFFFFFFFC) = 0x8C01FFFC ∧
    encode (.sw 0 3 12) = 0xAC03000C := by decide

/-! ## One step of each instruction -/

/-- R150, S4: 5 + 7. -/
theorem test_add : nextHas (step (stateWith 0x100 [(8, 5), (9, 7)] [(0x100, 0x01090020)]))
    (fun t => getReg t 9 = 12 && getReg t 8 = 5 && t.pc = 0x104) = true := by decide
/-- Register 0 as destination (95_test_vectors.md 2.2, R22). -/
theorem test_add_register_zero : nextHas (step (stateWith 0x100 [(9, 3), (0, 4)] [(0x100, 0x01200020)]))
    (fun t => getReg t 0 = 7) = true := by decide
/-- R155: 5 - 12. -/
theorem test_sub : nextHas (step (stateWith 0x100 [(8, 5), (9, 12)] [(0x100, 0x01090022)]))
    (fun t => getReg t 9 = 0xFFFFFFF9 && getReg t 8 = 5) = true := by decide
/-- R160, S5. -/
theorem test_xor : nextHas (step (stateWith 0x100 [(8, 0b1010), (9, 0b0110)] [(0x100, 0x01090026)]))
    (fun t => getReg t 9 = 0b1100) = true := by decide
/-- R173 (e): a misaligned load (95_test_vectors.md 2.4). -/
theorem test_lw_misaligned :
    nextHas (step (stateWith 0x100 [(8, 0x10)] [(0x14, 0xDEADBEEF), (0x100, 0x8D0B0003)]))
    (fun t => getReg t 11 = 0xADBEEF00) = true := by decide
/-- R172: -4 from 0 (95_test_vectors.md 2.5). -/
theorem test_lw_out_of_range : faultIs (step (stateWith 0x100 [] [(0x100, 0x8C01FFFC)]))
    (.outOfRange 0xFFFFFFFC) = true := by decide
/-- R175: the bytes EF BE AD DE. -/
theorem test_sw :
    nextHas (step (stateWith 0x100 [(8, 0x10), (9, 0xDEADBEEF)] [(0x100, 0xAD090004)]))
    (fun t => readByte t.mem 0x14 = 0xEF && readByte t.mem 0x15 = 0xBE &&
      readByte t.mem 0x16 = 0xAD && readByte t.mem 0x17 = 0xDE && readByte t.mem 0x18 = 0) = true := by
  decide
/-- R177: the word at 0xFE crosses the region's end (95_test_vectors.md 2.4). -/
theorem test_sw_across_regions :
    faultIs (step (stateWith 0x100 [(8, 0xFE), (9, 0xFFFFFFFF)] [(0x100, 0xAD090000)]))
    (.outOfRange 0xFE) = true := by decide
/-- R190 and the fetch's own error (95_test_vectors.md 2.5). -/
theorem test_unrecognized : faultIs (step (stateWith 0x100 [] [(0x100, 0xFFFFFFFF)]))
    (.unsupportedInstruction 0xFFFFFFFF) = true := by decide
theorem test_fetch_out_of_range : faultIs (step (stateWith 0x1FE [] [])) (.outOfRange 0x1FE) = true := by
  decide
/-- The instruction placed after reset is the one that runs. -/
theorem test_withFetchWord : nextHas (step (State.reset.withFetchWord 32 0x8C010100))
    (fun t => getReg t 1 = 0x8C010100 && t.pc = 0x104) = true := by decide
/-- Program P4: a faulting load ends the run (R238). -/
theorem test_run_p4 : (match load State.reset [0x8C01FFFC, 0x01090020] with
    | .ok s => decide (run 2 s [] = .faulted (.outOfRange 0xFFFFFFFC) s [.outOfRange 0xFFFFFFFC])
    | .error _ => false) = true := by decide
/-- Under SKIP_UNSUPPORTED the host steps over the word (95_test_vectors.md 2.5). -/
theorem test_run_skips :
    (match load { State.reset with params := { Config.defaultParams with skipUnsupported := true } } [0] with
    | .ok s => decide (run 1 s [] = .ended { s with pc := 0x104 } [.unsupportedInstruction 0])
    | .error _ => false) = true := by decide
/-- The suggested status numbers (R200). -/
theorem test_status_numbers :
    Fault.status (.outOfRange 0) = 1 ∧ Fault.status (.invalidRegister 32) = 2 ∧
    Fault.status (.unsupportedInstruction 0) = 3 := by decide

/-! ## Witnesses: states and operands that meet the hypotheses of the statements -/

/-- A state whose next step is `ADD r9, r8`. -/
def addState : State := stateWith 0x100 [(8, 5), (9, 7)] [(0x100, 0x01090020)]

/-- A state whose next step is `SW r9, 4(r8)`; the word after it is what x[9] holds, if the base is
0x100. -/
def swState (base : Word) : State :=
  stateWith 0x100 [(8, base), (9, 0x01090020)] [(0x100, 0xAD090004)]

theorem witness_ignored_bits : (0x01090020 : Word).toNat / 2 ^ 26 = 0 ∧
    ∀ k, k < 6 ∨ 16 ≤ k → (0x01090020 : Word).getLsbD k = (0x0109FFE0 : Word).getLsbD k := by
  refine ⟨by decide, fun k hk => ?_⟩
  by_cases h : k < 32
  · have : ∀ k, k < 32 → k < 6 ∨ 16 ≤ k →
      (0x01090020 : Word).getLsbD k = (0x0109FFE0 : Word).getLsbD k := by decide
    exact this k h hk
  · rw [BitVec.getLsbD_of_ge _ _ (by omega), BitVec.getLsbD_of_ge _ _ (by omega)]
theorem witness_masks : (0x01090020 : Word) &&& 0xFC00003F = 0x00000020 ∧
    (0x0109FFE2 : Word) &&& 0xFC00003F = 0x00000022 ∧
    (0x03FFFFE6 : Word) &&& 0xFC00003F = 0x00000026 ∧
    (0x8C008000 : Word) &&& 0xFC000000 = 0x8C000000 ∧
    (0xAFFF7FFF : Word) &&& 0xFC000000 = 0xAC000000 := by decide
theorem witness_wellformed_instructions :
    Instr.wf (.lw 31 0 0x00007FFF) = true ∧ Instr.wf (.sw 0 31 0xFFFF8000) = true ∧
    Instr.wf (.add 0 31 0) = true := by decide
theorem witness_recognised : (decode 0x0109FFE0).kind ≠ .unrecognized ∧
    (decode 0x8C008000).kind ≠ .unrecognized := by decide
theorem witness_memory_words : decode 0x8C008000 = .lw 0 0 0xFFFF8000 ∧
    decode 0xAC007FFF = .sw 0 0 0x00007FFF := by decide
theorem witness_short_bytes : ([0, 0, 0] : List Byte).length < 4 := by decide
theorem witness_step_runs : WordInRegion addState.params addState.pc.toNat ∧
    decodeBytes [readByte addState.mem 0x100, readByte addState.mem 0x101,
      readByte addState.mem 0x102, readByte addState.mem 0x103] = .ok (.add 8 9 0, []) ∧
    ¬ WordInRegion State.reset.params 0x1FE := by
  refine ⟨by decide, rfl, by decide⟩
theorem witness_params : Config.defaultParams.WellFormed ∧
    Params.WellFormed ⟨0xFFFFFF00, 0x100, 0, true⟩ := by decide
theorem witness_step_next : Inv addState ∧ PcAligned addState ∧ ∃ t, step addState = .next t :=
  ⟨by decide, by decide, exists_of_nextHas (by decide)⟩
theorem witness_core_run : ∃ t, Sys2Proof.core.run 1 addState = .next t :=
  exists_of_nextHas (o := Sys2Proof.core.run 1 addState) (by decide)
theorem witness_register_form : ∃ t, exec (.add 8 9 0) addState = .next t ∧ (8 : RegIdx) ≠ 9 ∧
    getReg State.reset 8 = 0 :=
  ⟨_, rfl, by decide, by decide⟩
/-- Two states that differ in another register, in memory and in the pc, and agree on the sources. -/
theorem witness_same_sources : getReg addState 8 = getReg (stateWith 0 [(8, 5), (9, 7), (1, 1)] []) 8 ∧
    getReg addState 9 = getReg (stateWith 0 [(8, 5), (9, 7), (1, 1)] []) 9 ∧
    addState ≠ stateWith 0 [(8, 5), (9, 7), (1, 1)] [] := by decide
/-- The last word of either region, and the first address past it. -/
theorem witness_region_edges :
    WordInRegion State.reset.params (effectiveAddress State.reset 0 0xFC).toNat ∧
    WordInRegion State.reset.params (effectiveAddress State.reset 0 0x1FC).toNat ∧
    ¬ WordInRegion State.reset.params (effectiveAddress State.reset 0 0xFD).toNat ∧
    ¬ WordInRegion State.reset.params (effectiveAddress State.reset 0 0x1FD).toNat ∧
    ¬ WordInRegion State.reset.params (effectiveAddress State.reset 0 0xFFFFFFFC).toNat := by decide
/-- A cycle that fetches an LW, and one that fetches an SW, whose address is not admitted. -/
theorem witness_out_of_range_cycles :
    (WordInRegion State.reset.params 0x100 ∧
      decode (readWord (State.reset.withFetchWord 32 0x8C0100FD).mem 0x100) = .lw 0 1 0xFD ∧
      ¬ WordInRegion State.reset.params 0xFD) ∧
    decode (readWord (State.reset.withFetchWord 32 0xAC0100FD).mem 0x100) = .sw 0 1 0xFD := by decide
theorem witness_lw_and_sw_complete : (∃ t, exec (.lw 0 1 0xFC) State.reset = .next t) ∧
    ∃ t, exec (.sw 0 1 0xFC) State.reset = .next t :=
  ⟨exists_of_nextHas (by decide), exists_of_nextHas (by decide)⟩
theorem witness_store_then_load : ∃ t, exec (.sw 8 9 4) (swState 0x10) = .next t ∧
    getReg t 8 = getReg t 8 ∧ t.params = t.params := by
  obtain ⟨t, h⟩ := exists_of_nextHas (o := exec (.sw 8 9 4) (swState 0x10)) (by decide)
  exact ⟨t, h, rfl, rfl⟩
theorem witness_store_ahead_of_pc : (∃ t, exec (.sw 8 9 4) (swState 0x100) = .next t) ∧
    effectiveAddress (swState 0x100) 8 4 = (swState 0x100).pc + 4 :=
  ⟨exists_of_nextHas (by decide), by decide⟩
theorem witness_unrecognized : WordInRegion State.reset.params State.reset.pc.toNat ∧
    decode (readWord State.reset.mem State.reset.pc.toNat) = .unrecognized ∧
    (0x01090021 : Word) &&& 0xFC00003F ≠ 0x00000020 ∧ (0x01090021 : Word) &&& 0xFC00003F ≠ 0x00000022 ∧
    (0x01090021 : Word) &&& 0xFC00003F ≠ 0x00000026 ∧ (0x01090021 : Word) &&& 0xFC000000 ≠ 0x8C000000 ∧
    (0x01090021 : Word) &&& 0xFC000000 ≠ 0xAC000000 := by decide
theorem witness_one_region : (Config.defaultParams.regions.filter (fun r => regionContains r 0xFF)).length = 1 ∧
    (Config.defaultParams.regions.filter (fun r => regionContains r 0x100)).length = 1 := by decide
theorem witness_admission_edges : admitted Config.defaultParams 0xFC = true ∧
    admitted Config.defaultParams 0xFD = false ∧ admitted Config.defaultParams 0xFF = false ∧
    admitted Config.defaultParams 0x100 = true ∧ admitted Config.defaultParams 0xFFFFFFFD = false := by
  decide
theorem witness_host_registers : hostGet addState 9 = .ok 7 ∧
    hostGet addState 32 = .error (.invalidRegister 32) := ⟨rfl, rfl⟩
theorem witness_host_memory : (∃ t, hostWrite State.reset 0xFC 0x01020304 = .ok t) ∧
    byteExists State.reset.params 0x200 = false ∧
    (∃ t, hostWriteByte State.reset 0x1FF 1 = .ok t) ∧ (∃ t, hostSet State.reset 31 1 = .ok t) :=
  ⟨⟨_, rfl⟩, by decide, ⟨_, rfl⟩, ⟨_, rfl⟩⟩
theorem witness_program_sizes : 4 * (List.replicate 64 (0 : Word)).length ≤ State.reset.params.instrSize ∧
    State.reset.params.instrSize < 4 * (List.replicate 65 (0 : Word)).length := by decide
/-- R237: at LAST; away from it, a step that completes and one that faults, with either policy; one word
before LAST. -/
theorem witness_run : State.reset.pc = State.reset.params.last ∧
    (∃ t, step (stateWith 0x104 [] [(0x104, 0x01090020)]) = .next t) ∧
    step (stateWith 0x104 [] []) = .fault (.unsupportedInstruction 0) ∧
    step (stateWith 0x1FD [] []) = .fault (.outOfRange 0x1FD) ∧
    (stateWith 0x104 [] []).pc ≠ (stateWith 0x104 [] []).params.last ∧
    (stateWith 0x1FD [] []).pc ≠ (stateWith 0x1FD [] []).params.last ∧
    (stateWith 0x104 [] []).params.skipUnsupported = false ∧
    (stateWith 0x0FC [] []).pc + BitVec.ofNat 32 (4 * 1) = (stateWith 0x0FC [] []).params.last :=
  ⟨by decide, exists_of_nextHas (by decide), eq_of_faultIs (by decide), eq_of_faultIs (by decide),
    by decide, by decide, by decide, by decide⟩
/-- The same faulting step under the skip policy. -/
theorem witness_run_skip :
    let s := { stateWith 0x104 [] [] with
      params := { Config.defaultParams with skipUnsupported := true } }
    step s = .fault (.unsupportedInstruction 0) ∧ s.pc ≠ s.params.last ∧
    s.params.skipUnsupported = true :=
  ⟨eq_of_faultIs (by decide), by decide, by decide⟩
theorem witness_ports : fetch addState = .ok 0x01090020 ∧ ∃ t, step addState = .next t :=
  ⟨rfl, exists_of_nextHas (by decide)⟩
theorem witness_reset_inv : Inv State.reset := by decide

end Sys2Proof.Tests
end

section
/-! PROOFS. The memory statements (20_memory.md): MemRead, MemWrite, the read-after-write laws and the
uniqueness of the region that contains an address. -/

namespace Sys2Proof.Machine

/-- MemWrite writes memory only: registers, pc and parameters are as before (20_memory.md R59). -/
theorem memWrite_frame {s t : State} {a v : Word} (h : memWrite s a v = .ok t) :
    BytesSameOutside a s t ∧ RegsSame s t ∧ t.pc = s.pc ∧ t.params = s.params := by
  have hbytes : BytesSameOutside a s t := fun _ hb => readByte_of_memWrite_outside h hb
  obtain ⟨-, rfl⟩ := memWrite_eq_ok.1 h
  exact ⟨hbytes, fun q => getReg_withMem s _ q, rfl, rfl⟩

/-- MemWrite answers a state wherever one region holds all four bytes (R57, R59). -/
theorem exists_memWrite_of_wordInRegion {s : State} {a : Word} (v : Word)
    (h : WordInRegion s.params a.toNat) : ∃ t, memWrite s a v = .ok t :=
  ⟨_, memWrite_ok v ((admitted_iff _ _).2 h)⟩

/-- No word access at the three highest addresses of the data region lies in one region: the fourth byte
is past the data region, and the instruction region starts no lower than that (R51, R57). -/
theorem not_wordInRegion_at_end_of_data {p : Params} (hp : p.WellFormed) {a : Nat} (hlo : 0xFD ≤ a)
    (hhi : a ≤ 0xFF) : ¬ WordInRegion p a := by
  obtain ⟨-, -, hsize, -, hapart⟩ := hp
  simp only [Config.dataBase, Config.dataSize] at hapart
  rintro (⟨-, hend⟩ | ⟨hstart, -⟩)
  · simp only [Config.dataBase, Config.dataSize] at hend
    omega
  · omega

/-- Containment of one byte, on integers (R53). -/
theorem regionContains_iff (r : Region) (a : Nat) :
    regionContains r a = true ↔ r.start ≤ a ∧ a < r.start + r.size := by
  simp [regionContains]

/-- The two regions of well-formed parameters share no address (R51). -/
theorem not_regionContains_data_and_instr {p : Params} (hp : p.WellFormed) (a : Nat) :
    ¬ (regionContains Config.dataRegion a = true ∧ regionContains p.instrRegion a = true) := by
  obtain ⟨-, -, -, -, hapart⟩ := hp
  rw [regionContains_iff, regionContains_iff]
  rintro ⟨⟨hd, hd'⟩, hi, hi'⟩
  simp only [Config.dataRegion, Params.instrRegion] at hd hd' hi hi'
  omega

/-- A region is the data region or the instruction region (R51). -/
theorem mem_regions {p : Params} {r : Region} :
    r ∈ p.regions ↔ r = Config.dataRegion ∨ r = p.instrRegion := by
  simp [Params.regions]

/-- Settles O37: the read is admitted exactly on `WordInRegion`, and the fetch is the read at pc. -/
theorem memReadGivesTheLittleEndianWord : Obligations.MemReadGivesTheLittleEndianWord := by
  intro s a
  refine ⟨fun h => ?_, fun h => ?_, fun h => ?_⟩
  · exact ⟨_, memRead_ok ((admitted_iff _ _).2 h), readWord_toNat _ _⟩
  · exact memRead_error ((not_admitted_iff _ _).2 h)
  · exact fetch_eq_error.2 ⟨(not_admitted_iff _ _).2 h, rfl⟩

/-- Settles O38: the bytes inside the written word are its bytes, and the rest is MemWrite's frame. -/
theorem memWriteStoresFourBytes : Obligations.MemWriteStoresFourBytes := by
  intro s a v
  refine ⟨fun h => ?_, fun h => memWrite_error v ((not_admitted_iff _ _).2 h)⟩
  obtain ⟨t, ht⟩ := exists_memWrite_of_wordInRegion v h
  refine ⟨t, ht, fun k hk => ?_, memWrite_frame ht⟩
  rw [readByte_of_memWrite_inside ht hk, byteOf_toNat]

/-- Settles O39: laws (a), (b) and (c) from the byte laws of MemWrite, and the failing addresses from the
extents of the regions. -/
theorem readAfterWriteLaws : Obligations.ReadAfterWriteLaws := by
  refine ⟨fun s a v h => ?_, fun s a h => ?_, fun s a v hp hlo hhi => ?_⟩
  · obtain ⟨t, ht⟩ := exists_memWrite_of_wordInRegion v h
    obtain ⟨hbytes, -⟩ := memWrite_frame ht
    exact ⟨t, ht, memRead_of_memWrite ht, hbytes⟩
  · obtain ⟨t, ht⟩ := exists_memWrite_of_wordInRegion 0x01020304 h
    have hbyte {k : Nat} (hk : k < 4) := readByte_of_memWrite_inside ht hk
    have hbyte0 : readByte t.mem a.toNat = byteOf 0x01020304 0 := hbyte (k := 0) (by decide)
    refine ⟨t, ht, ?_⟩
    rw [hbyte0, hbyte (k := 1) (by decide), hbyte (k := 2) (by decide), hbyte (k := 3) (by decide)]
    decide
  · exact memWrite_error v ((not_admitted_iff _ _).2 (not_wordInRegion_at_end_of_data hp hlo hhi))

/-- Settles O40: two different regions are the data region and the instruction region, which are
disjoint. -/
theorem atMostOneRegionContainsAnAddress : Obligations.AtMostOneRegionContainsAnAddress := by
  intro p a hp
  refine ⟨fun r _ => regionContains_iff r a, fun r q hr hq hra hqa => ?_⟩
  have hdisjoint := not_regionContains_data_and_instr hp a
  rcases mem_regions.1 hr with rfl | rfl <;> rcases mem_regions.1 hq with rfl | rfl
  · rfl
  · exact absurd ⟨hra, hqa⟩ hdisjoint
  · exact absurd ⟨hqa, hra⟩ hdisjoint
  · rfl

end Sys2Proof.Machine
end

section
/-! PROOFS. The decoder's statements (30_encoding.md): the decoder function on numbers, the rows of the
opcode table by mask and match, and the operands a decoded descriptor can carry. -/

namespace Sys2Proof
open Sys2Proof.Machine

/-- The immediate of R97 is the number that R12's sign extension gives. -/
theorem sext32_imm16Of_eq (w : Word) :
    sext32 (imm16Of w) = BitVec.ofNat 32 (specSext (w.toNat % 2 ^ 16)) := by
  apply BitVec.eq_of_toNat_eq
  rw [sext32_toNat, imm16Of_toNat, BitVec.toNat_ofNat, specSext]
  split <;> omega

/-- Only well-formed descriptors leave the decoder: a register form is always one, and the immediate of
a memory form is a sign extension (R97, R114). -/
theorem decode_wf (w : Word) : (decode w).wf = true := by
  rcases decode_cases w with
    ⟨-, -, hd⟩ | ⟨-, -, hd⟩ | ⟨-, -, hd⟩ | ⟨-, hd⟩ | ⟨-, hd⟩ | ⟨-, -, -, hd⟩ <;>
    rw [hd]
  · rfl
  · rfl
  · rfl
  · exact immediateOk_sext32 _
  · exact immediateOk_sext32 _
  · rfl

/-- The immediate that a memory form carries is the sign extension of the word's `imm16` (R97, R99). -/
theorem imm_eq_of_decode_memoryForm {w : Word} {rs rt : RegIdx} {imm : Word}
    (h : decode w = .lw rs rt imm ∨ decode w = .sw rs rt imm) : imm = sext32 (imm16Of w) := by
  rcases decode_cases w with
    ⟨-, -, hd⟩ | ⟨-, -, hd⟩ | ⟨-, -, hd⟩ | ⟨-, hd⟩ | ⟨-, hd⟩ | ⟨-, -, -, hd⟩ <;>
    simp only [hd, reduceCtorEq, or_self, or_false, false_or, Instr.lw.injEq, Instr.sw.injEq] at h
  all_goals
    obtain ⟨-, -, himm⟩ := h
    exact himm.symm

/-- Settles O2: each test and each operand of `decode` is the number that stands in its field. -/
theorem decodeIsTheDecoderFunction : Obligations.DecodeIsTheDecoderFunction := by
  intro w
  simp (disch := decide) only [decode, BitVec.ofNat_eq_ofNat, opcodeOf_eq_iff, functOf_eq_iff,
    rsOf_eq, rtOf_eq, rdOf_eq, sext32_imm16Of_eq]

/-- Settles O3: a mask and match is a test of opcode and funct, and on each of the six rows of the
decoder those tests hold for that row's kind only. -/
theorem decodeFollowsTheMasks : Obligations.DecodeFollowsTheMasks := by
  intro w
  have hadd : w &&& 0xFC00003F = 0x00000020 ↔ opcodeOf w = 0 ∧ functOf w = 32 :=
    registerMask_iff w (n := 32) (by decide)
  have hsub : w &&& 0xFC00003F = 0x00000022 ↔ opcodeOf w = 0 ∧ functOf w = 34 :=
    registerMask_iff w (n := 34) (by decide)
  have hxor : w &&& 0xFC00003F = 0x00000026 ↔ opcodeOf w = 0 ∧ functOf w = 38 :=
    registerMask_iff w (n := 38) (by decide)
  have hlw : w &&& 0xFC000000 = 0x8C000000 ↔ opcodeOf w = 35 := memoryMask_iff w 35
  have hsw : w &&& 0xFC000000 = 0xAC000000 ↔ opcodeOf w = 43 := memoryMask_iff w 43
  simp only [ne_eq, hadd, hsub, hxor, hlw, hsw, ← sext32_imm16Of_eq]
  rcases decode_cases w with ⟨hop, hf, hd⟩ | ⟨hop, hf, hd⟩ | ⟨hop, hf, hd⟩ | ⟨hop, hd⟩ | ⟨hop, hd⟩ |
    ⟨hnotRegister, hnotLw, hnotSw, hd⟩
  · simp [hop, hf, hd, rsOf, rtOf, rdOf]
  · simp [hop, hf, hd, rsOf, rtOf, rdOf]
  · simp [hop, hf, hd, rsOf, rtOf, rdOf]
  · simp [hop, hd, rsOf, rtOf]
  · simp [hop, hd, rsOf, rtOf]
  · simp only [ne_eq, imp_and, ← not_and] at hnotRegister
    obtain ⟨hnotAdd, hnotSub, hnotXor⟩ := hnotRegister
    simp only [hnotAdd, hnotSub, hnotXor, hnotLw, hnotSw, hd, reduceCtorEq, not_false_eq_true,
      and_self]

/-- Settles O8: sign extension keeps the signed value of 16 bits, and so its range. -/
theorem decodedOperandsAreWellFormed : Obligations.DecodedOperandsAreWellFormed := by
  refine ⟨decode_wf, fun w rs rt imm h => ?_⟩
  have himm : imm.toInt = (imm16Of w).toInt := by
    rw [imm_eq_of_decode_memoryForm h, sext32_toInt]
  have hlo := BitVec.le_toInt (imm16Of w)
  have hhi := BitVec.toInt_lt (x := imm16Of w)
  refine ⟨himm, ?_, ?_⟩ <;> omega

end Sys2Proof
end

section
/-! PROOFS. What a cycle reports for each outcome of its step (40_execution_cycle.md R130, R138), and
the statement that an error leaves the state as it was. -/

namespace Sys2Proof.Machine

theorem cycle_of_step_next {s t : State} (h : step s = .next t) : cycle s = .ok t := by
  rw [cycle, h]

theorem cycle_of_step_fault {s : State} {e : Fault} (h : step s = .fault e) :
    cycle s = .error e s := by
  rw [cycle, h]

theorem cycle_of_step_refused {s : State} {r : Refusal} (h : step s = .refused r) :
    cycle s = .noMeaning r s := by
  rw [cycle, h]

/-- Settles O14: of the three outcomes of a step only a fault is reported as an error, and that
report carries the state the cycle began in. -/
theorem errorsLeaveTheStateUnchanged : Obligations.ErrorsLeaveTheStateUnchanged := by
  intro s t e
  constructor
  · intro hcycle
    cases hstep : step s with
    | next u => simp [cycle_of_step_next hstep] at hcycle
    | fault f =>
      rw [cycle_of_step_fault hstep, Report.error.injEq] at hcycle
      obtain ⟨rfl, rfl⟩ := hcycle
      exact ⟨rfl, rfl⟩
    | refused r => simp [cycle_of_step_refused hstep] at hcycle
  · rintro ⟨rfl, hstep⟩
    exact cycle_of_step_fault hstep

end Sys2Proof.Machine
end

section
/-! PROOFS. LW and SW (42_load_store.md): when each completes, its frame, and the cycle of an access
that no region admits. -/

namespace Sys2Proof.Machine

variable {rs rt : RegIdx} {imm : Word} {s t : State} {e : Fault}

/-- LW answers a next state only where one region holds its word, and then this one (R170). -/
theorem exec_lw_eq_next :
    exec (.lw rs rt imm) s = .next t ↔
      WordInRegion s.params (effectiveAddress s rs imm).toNat ∧
      t = advancePc (setReg s rt (readWord s.mem (effectiveAddress s rs imm).toNat)) := by
  rw [exec, execLw_eq, ← admitted_iff]
  split
  · next hin => simp [hin, eq_comm]
  · next hout => simp [hout, eq_comm]

/-- LW faults only where no region holds its word, and then with `OutOfRange` (R172). -/
theorem exec_lw_eq_fault :
    exec (.lw rs rt imm) s = .fault e ↔
      ¬ WordInRegion s.params (effectiveAddress s rs imm).toNat ∧
      e = .outOfRange (effectiveAddress s rs imm) := by
  rw [exec, execLw_eq, ← admitted_iff]
  split
  · next hin => simp [hin, eq_comm]
  · next hout => simp [hout, eq_comm]

/-- SW answers a next state only where its MemWrite answers one, and adds the pc advance (R175). -/
theorem exec_sw_eq_next :
    exec (.sw rs rt imm) s = .next t ↔
      ∃ u, memWrite s (effectiveAddress s rs imm) (getReg s rt) = .ok u ∧ t = advancePc u := by
  rw [exec, execSw_eq]
  simp only [memWrite_eq_ok]
  split
  · next hin => simp [hin, eq_comm]
  · next hout => simp [hout, eq_comm]

/-- SW faults only where no region holds its word, and then with `OutOfRange` (R177). -/
theorem exec_sw_eq_fault :
    exec (.sw rs rt imm) s = .fault e ↔
      ¬ WordInRegion s.params (effectiveAddress s rs imm).toNat ∧
      e = .outOfRange (effectiveAddress s rs imm) := by
  rw [exec, execSw_eq, ← admitted_iff]
  split
  · next hin => simp [hin, eq_comm]
  · next hout => simp [hout, eq_comm]

/-- LW writes its destination register and the pc only (R181). -/
theorem exec_lw_frame (h : exec (.lw rs rt imm) s = .next t) :
    RegsSameExcept rt s t ∧ BytesSame s t ∧ PcAdvanced s t ∧ t.params = s.params := by
  obtain ⟨-, rfl⟩ := exec_lw_eq_next.1 h
  exact ⟨fun q hq => getReg_setReg_other s _ hq, fun _ => rfl, advancePc_toNat _, rfl⟩

/-- SW writes the four bytes at its effective address and the pc only: MemWrite's frame, with the pc
advance (R181). -/
theorem exec_sw_frame (h : exec (.sw rs rt imm) s = .next t) :
    RegsSame s t ∧ BytesSameOutside (effectiveAddress s rs imm) s t ∧ PcAdvanced s t ∧
      t.params = s.params := by
  obtain ⟨u, hu, rfl⟩ := exec_sw_eq_next.1 h
  obtain ⟨hbytes, hregs, hpc, hparams⟩ := memWrite_frame hu
  have hadvanced : PcAdvanced s (advancePc u) := by rw [PcAdvanced, advancePc_toNat, hpc]
  exact ⟨hregs, hbytes, hadvanced, hparams⟩

/-- The bytes that SW stores are those of `x[rt]`, lowest first (R175). -/
theorem readByte_of_exec_sw (h : exec (.sw rs rt imm) s = .next t) {k : Nat} (hk : k < 4) :
    readByte t.mem ((effectiveAddress s rs imm).toNat + k) = byteOf (getReg s rt) k := by
  obtain ⟨u, hu, rfl⟩ := exec_sw_eq_next.1 h
  exact readByte_of_memWrite_inside hu hk

/-- A cycle whose fetched instruction faults reports that fault with the state it began in (R138). -/
theorem cycle_of_exec_fault {i : Instr} (hpc : WordInRegion s.params s.pc.toNat)
    (hi : decode (readWord s.mem s.pc.toNat) = i) (h : exec i s = .fault e) :
    cycle s = .error e s := by
  subst hi
  exact cycle_of_step_fault ((step_of_admitted ((admitted_iff _ _).2 hpc)).trans h)

end Sys2Proof.Machine
end

section
/-! PROOFS. The statements about LW and SW. -/

namespace Sys2Proof.Machine

/-- Settles O30: outside the regions LW faults with `OutOfRange`, and the cycle reports that fault. -/
theorem lwOutOfRangeWritesNothing : Obligations.LwOutOfRangeWritesNothing := by
  intro rs rt imm s
  refine ⟨fun hout => ?_, fun e he => (exec_lw_eq_fault.1 he).2⟩
  have hfault := (exec_lw_eq_fault (rt := rt)).2 ⟨hout, rfl⟩
  exact ⟨hfault, fun hpc hi => cycle_of_exec_fault hpc hi hfault⟩

/-- Settles O31: SW completes where its MemWrite does, with that write's bytes and frame; its words are
its row of the opcode table. -/
theorem swStoresTheWord : Obligations.SwStoresTheWord := by
  constructor
  · intro rs rt imm s hin
    obtain ⟨u, hu⟩ := exists_memWrite_of_wordInRegion (getReg s rt) hin
    have hnext : exec (.sw rs rt imm) s = .next (advancePc u) := exec_sw_eq_next.2 ⟨u, hu, rfl⟩
    obtain ⟨hregs, hbytes, hpc, hparams⟩ := exec_sw_frame hnext
    refine ⟨_, hnext, fun k hk => ?_, hbytes, hregs, hpc, hparams⟩
    rw [readByte_of_exec_sw hnext hk, byteOf_toNat]
  · intro w hw
    obtain ⟨-, -, -, -, hsw, -⟩ := decodeFollowsTheMasks w
    exact hsw.1 hw

/-- Settles O32: outside the regions SW faults with `OutOfRange`, and the cycle reports that fault. -/
theorem swOutOfRangeWritesNothing : Obligations.SwOutOfRangeWritesNothing := by
  intro rs rt imm s
  refine ⟨fun hout => ?_, fun e he => (exec_sw_eq_fault.1 he).2⟩
  have hfault := (exec_sw_eq_fault (rt := rt)).2 ⟨hout, rfl⟩
  exact ⟨hfault, fun hpc hi => cycle_of_exec_fault hpc hi hfault⟩

/-- Settles O33: the frames of the two instructions. -/
theorem lwAndSwHaveNoOtherEffect : Obligations.LwAndSwHaveNoOtherEffect :=
  fun _ _ _ _ _ => ⟨exec_lw_frame, exec_sw_frame⟩

end Sys2Proof.Machine
end

section
/-! PROOFS. The statement about UNRECOGNIZED (43_unrecognized.md). -/

namespace Sys2Proof.Machine

/-- UNRECOGNIZED whose word can be fetched faults with that word, and has no other outcome (R190). -/
theorem exec_unrecognized_of_wordInRegion {s : State} (h : WordInRegion s.params s.pc.toNat) :
    exec .unrecognized s = .fault (.unsupportedInstruction (readWord s.mem s.pc.toNat)) := by
  rw [exec, execUnrecognized_eq, if_pos ((admitted_iff _ _).2 h)]

/-- Settles O36: the words are the default row of the opcode table, and the cycle reports the fault of
UNRECOGNIZED with the state it began in. -/
theorem unrecognizedAlwaysRaisesUnsupported :
    Obligations.UnrecognizedAlwaysRaisesUnsupported := by
  constructor
  · intro w hadd hsub hxor hlw hsw
    obtain ⟨-, -, -, -, -, hdefault⟩ := decodeFollowsTheMasks w
    exact hdefault.1 ⟨hadd, hsub, hxor, hlw, hsw⟩
  · intro s hpc
    have hfault := exec_unrecognized_of_wordInRegion hpc
    exact ⟨hfault, fun hi => cycle_of_exec_fault hpc hi hfault⟩

end Sys2Proof.Machine
end

section
/-! PROOFS. Which cycle raises what (60_exceptions.md R204): the fetch where no region holds the word at
`pc`, UNRECOGNIZED, and LW or SW at an address that no region admits. -/

namespace Sys2Proof.Machine

/-- The register forms cannot fail (41_arith_logic.md R146). -/
theorem execRegisterForm_ne_fault (op : AluOp) (rs rt : RegIdx) (s : State) (e : Fault) :
    execRegisterForm op rs rt s ≠ .fault e := nofun

/-- Everything `exec` can fault with where the word at `pc` can be fetched: UNRECOGNIZED, LW and SW have
one fault each, the register forms none (R204). -/
theorem exec_eq_fault_of_wordInRegion {i : Instr} {s : State} {e : Fault}
    (hpc : WordInRegion s.params s.pc.toNat) :
    exec i s = .fault e ↔
      (i = .unrecognized ∧ e = .unsupportedInstruction (readWord s.mem s.pc.toNat)) ∨
      ∃ rs rt imm, (i = .lw rs rt imm ∨ i = .sw rs rt imm) ∧
        ¬ WordInRegion s.params (effectiveAddress s rs imm).toNat ∧
        e = .outOfRange (effectiveAddress s rs imm) := by
  cases i with
  | add rs rt rd => simp [exec, execAdd, execRegisterForm_ne_fault]
  | sub rs rt rd => simp [exec, execSub, execRegisterForm_ne_fault]
  | xor rs rt rd => simp [exec, execXor, execRegisterForm_ne_fault]
  | lw rs rt imm => simp [exec_lw_eq_fault]
  | sw rs rt imm => simp [exec_sw_eq_fault]
  | unrecognized => simp [exec_unrecognized_of_wordInRegion hpc, eq_comm]

/-- Settles O13: where no word can be fetched at `pc` the step's fault is the fetch's; elsewhere it is
that of `exec` on the fetched word's descriptor. -/
theorem stepFaultsExactlyWhen : Obligations.StepFaultsExactlyWhen := by
  intro s e
  by_cases hpc : WordInRegion s.params s.pc.toNat
  · rw [step_of_admitted ((admitted_iff _ _).2 hpc), exec_eq_fault_of_wordInRegion hpc]
    simp only [hpc, not_true_eq_false, false_and, false_or, true_and]
  · rw [step_of_not_admitted ((not_admitted_iff _ _).2 hpc), Host.Outcome.fault.injEq, eq_comm]
    simp only [hpc, not_false_eq_true, true_and, false_and, or_false]

end Sys2Proof.Machine
end

section
/-! PROOFS. Memory straight after reset, the first cycle, and the parameters that no step changes
(70_reset_and_hazards.md R231). -/

namespace Sys2Proof.Machine

/-- No step changes a parameter: a register write, a word store and the pc advance all leave them
(00_scope.md R9). -/
theorem step_keeps_params {s t : State} (h : step s = .next t) : t.params = s.params := by
  rcases step_next_cases h with ⟨r, v, rfl⟩ | ⟨a, v, -, rfl⟩
  · rw [advancePc_params, setReg_params]
  · rw [advancePc_params]

/-- The all-zero word that reset memory holds decodes to UNRECOGNIZED (30_encoding.md R108). -/
theorem decode_readWord_resetWith (p : Params) (a : Nat) :
    decode (readWord (State.resetWith p).mem a) = .unrecognized := by
  rw [resetWith_mem, readWord_nil]
  decide

/-- Settles O43: the first fetch after reset reads the zero word at `INSTR_BASE`, and UNRECOGNIZED
faults with it. -/
theorem cycleAfterResetIsUnsupported : Obligations.CycleAfterResetIsUnsupported := by
  refine ⟨fun p hp => ⟨readByte_nil, ?_⟩, fun _ _ => step_keeps_params⟩
  have hpc : WordInRegion (State.resetWith p).params (State.resetWith p).pc.toNat :=
    (admitted_iff _ _).1 (admitted_instrBase hp)
  have hfault := exec_unrecognized_of_wordInRegion hpc
  rw [resetWith_mem, readWord_nil] at hfault
  exact cycle_of_exec_fault hpc (decode_readWord_resetWith p _) hfault

end Sys2Proof.Machine
end

section
/-! PROOFS. The host's load (70_reset_and_hazards.md R234): what it can answer, its frame, and the words
it leaves in memory. -/

namespace Sys2Proof.Machine

/-- A word read depends on its four bytes only (20_memory.md R58). -/
theorem readWord_congr {m m' : Memory} {a : Nat}
    (h : ∀ b, a ≤ b → b < a + 4 → readByte m b = readByte m' b) :
    readWord m a = readWord m' a := by
  rw [readWord, readWord, h a, h (a + 1), h (a + 2), h (a + 3)] <;> omega

/-- Loading a word and the words after it is one MemWrite, then the rest from the next word on. -/
theorem loadFrom_cons_eq_ok {s t : State} {a : Nat} {w : Word} {ws : List Word} :
    loadFrom s a (w :: ws) = .ok t ↔
      a < Config.addressLimit ∧
      ∃ u, memWrite s (BitVec.ofNat 32 a) w = .ok u ∧ loadFrom u (a + 4) ws = .ok t := by
  by_cases ha : a < Config.addressLimit
  · cases hw : memWrite s (BitVec.ofNat 32 a) w with
    | ok u => simp [loadFrom, ha, hw, Config.wordBytes]
    | error e => simp [loadFrom, ha, hw]
  · simp [loadFrom, ha]

/-- `load` is the word writes from `INSTR_BASE`, and then the new end marker (R234). -/
theorem load_eq_ok {s t : State} {ws : List Word} :
    load s ws = .ok t ↔
      ∃ u, loadFrom s s.params.instrBase.toNat ws = .ok u ∧
        t = { u with params := { u.params with
          last := s.params.instrBase + BitVec.ofNat 32 (4 * ws.length) } } := by
  cases hu : loadFrom s s.params.instrBase.toNat ws with
  | ok u => simp [load, hu, Config.wordBytes, eq_comm]
  | error e => simp [load, hu]

/-- An address of the address space survives the passage to 32 bits. -/
theorem toNat_ofNat_of_lt_addressLimit {a : Nat} (h : a < Config.addressLimit) :
    (BitVec.ofNat 32 a).toNat = a := by
  rw [BitVec.toNat_ofNat]
  exact Nat.mod_eq_of_lt h

/-- Loading words writes memory only, and there only the bytes it places words on. -/
theorem loadFrom_frame {ws : List Word} {s t : State} {a : Nat} (h : loadFrom s a ws = .ok t) :
    (∀ b : Nat, b < a ∨ a + 4 * ws.length ≤ b → readByte t.mem b = readByte s.mem b) ∧
    RegsSame s t ∧ t.pc = s.pc ∧ t.params = s.params := by
  induction ws generalizing s a with
  | nil =>
    cases h
    exact ⟨fun _ _ => rfl, fun _ => rfl, rfl, rfl⟩
  | cons w ws ih =>
    obtain ⟨ha, u, hu, hrest⟩ := loadFrom_cons_eq_ok.1 h
    obtain ⟨hbytes, hregs, hpc, hparams⟩ := memWrite_frame hu
    obtain ⟨hbytes', hregs', hpc', hparams'⟩ := ih hrest
    refine ⟨fun b hb => ?_, fun q => (hregs' q).trans (hregs q), hpc'.trans hpc,
      hparams'.trans hparams⟩
    rw [List.length_cons] at hb
    have houtside : OutsideWord (BitVec.ofNat 32 a) b := by
      rw [OutsideWord, toNat_ofNat_of_lt_addressLimit ha]
      omega
    rw [hbytes' b (by omega), hbytes b houtside]

/-- Word `i` of what was loaded lies `4 i` bytes past the start: later words lie past it. -/
theorem readWord_of_loadFrom {ws : List Word} {s t : State} {a : Nat}
    (h : loadFrom s a ws = .ok t) {i : Nat} (hi : i < ws.length) :
    readWord t.mem (a + 4 * i) = ws[i] := by
  induction ws generalizing s a i with
  | nil => exact absurd hi (Nat.not_lt_zero i)
  | cons w ws ih =>
    obtain ⟨ha, u, hu, hrest⟩ := loadFrom_cons_eq_ok.1 h
    cases i with
    | zero =>
      obtain ⟨hbytes, -⟩ := loadFrom_frame hrest
      obtain ⟨-, hw⟩ := memRead_eq_ok.1 (memRead_of_memWrite hu)
      rw [toNat_ofNat_of_lt_addressLimit ha] at hw
      calc readWord t.mem a
        _ = readWord u.mem a := readWord_congr fun b _ hb => hbytes b (.inl hb)
        _ = w := hw.symm
    | succ i =>
      rw [List.getElem_cons_succ, ← ih hrest (Nat.lt_of_succ_lt_succ hi)]
      congr 1
      omega

/-- Words that fit into the instruction region from `a` on can be loaded there. -/
theorem exists_loadFrom_of_fits {ws : List Word} {s : State} {a : Nat} (hp : s.params.WellFormed)
    (hstart : s.params.instrBase.toNat ≤ a)
    (hfits : a + 4 * ws.length ≤ s.params.instrBase.toNat + s.params.instrSize) :
    ∃ t, loadFrom s a ws = .ok t := by
  induction ws generalizing s a with
  | nil => exact ⟨s, rfl⟩
  | cons w ws ih =>
    rw [List.length_cons] at hfits
    have ha : a < Config.addressLimit := by
      obtain ⟨-, -, -, hlimit, -⟩ := hp
      omega
    have hin : WordInRegion s.params (BitVec.ofNat 32 a).toNat := by
      rw [toNat_ofNat_of_lt_addressLimit ha]
      exact .inr ⟨hstart, by omega⟩
    obtain ⟨u, hu⟩ := exists_memWrite_of_wordInRegion w hin
    obtain ⟨-, -, -, hparams⟩ := memWrite_frame hu
    obtain ⟨t, ht⟩ := ih (s := u) (a := a + 4) (by rwa [hparams]) (by rw [hparams]; omega)
      (by rw [hparams]; omega)
    exact ⟨t, loadFrom_cons_eq_ok.2 ⟨ha, u, hu, ht⟩⟩

/-- Settles O50: the words are loaded from `INSTR_BASE`, with that load's words and frame; the end marker
is set after it. -/
theorem loadPlacesTheProgram : Obligations.LoadPlacesTheProgram := by
  intro s ws hp hfits
  obtain ⟨u, hu⟩ := exists_loadFrom_of_fits (ws := ws) hp le_rfl (by omega)
  obtain ⟨hbytes, hregs, hpc, hparams⟩ := loadFrom_frame hu
  refine ⟨_, load_eq_ok.2 ⟨u, hu, rfl⟩, ⟨?_, ?_, fun i hi => ?_⟩, ?_, hregs, hpc, hbytes⟩
  · rwa [hparams]
  · rw [hparams]
  · rw [hparams]
    exact readWord_of_loadFrom hu hi
  · rw [hparams]

end Sys2Proof.Machine
end

section
/-! PROOFS. The encoder against the decoder (30_encoding.md R107, R112, R115): a word is what its fields
are, so both round trips and the equality of two descriptors are facts about fields. -/

namespace Sys2Proof
open Sys2Proof.Machine

/-- Two words with the bits of a field in common have that field in common (00_scope.md R11). -/
theorem field_eq_of_getLsbD {n lo : Nat} {w w' : Word}
    (h : ∀ k, lo ≤ k → k < lo + n → w.getLsbD k = w'.getLsbD k) :
    w.extractLsb' lo n = w'.extractLsb' lo n := by
  apply BitVec.eq_of_getLsbD_eq
  intro i hi
  simp only [BitVec.getLsbD_extractLsb', h (lo + i) (by omega) (by omega)]

/-- The fields of a register form that its descriptor is made from: every bit but 10:6 (R91, R99). -/
structure SameRegisterFields (w w' : Word) : Prop where
  opcode : opcodeOf w = opcodeOf w'
  rs : rsOf w = rsOf w'
  rt : rtOf w = rtOf w'
  rd : rdOf w = rdOf w'
  funct : functOf w = functOf w'

/-- Those fields are the bits outside 10:6. -/
theorem sameRegisterFields_iff {w w' : Word} :
    SameRegisterFields w w' ↔ ∀ k, k < 6 ∨ 11 ≤ k → w.getLsbD k = w'.getLsbD k := by
  constructor
  · rintro ⟨hop, hrs, hrt, hrd, hf⟩ k hk
    by_cases h6 : k < 6
    · exact getLsbD_eq_of_field hf (by omega) (by omega)
    by_cases h16 : k < 16
    · exact getLsbD_eq_of_field hrd (by omega) (by omega)
    by_cases h21 : k < 21
    · exact getLsbD_eq_of_field hrt (by omega) (by omega)
    by_cases h26 : k < 26
    · exact getLsbD_eq_of_field hrs (by omega) (by omega)
    by_cases h32 : k < 32
    · exact getLsbD_eq_of_field hop (by omega) (by omega)
    rw [BitVec.getLsbD_of_ge _ _ (by omega), BitVec.getLsbD_of_ge _ _ (by omega)]
  · intro h
    exact ⟨field_eq_of_getLsbD fun k _ _ => h k (by omega),
      field_eq_of_getLsbD fun k _ _ => h k (by omega),
      field_eq_of_getLsbD fun k _ _ => h k (by omega),
      field_eq_of_getLsbD fun k _ _ => h k (by omega),
      field_eq_of_getLsbD fun k _ _ => h k (by omega)⟩

/-- A word is its opcode, `rs`, `rt` and `imm16` (R92). -/
theorem eq_of_memoryFields {w w' : Word} (hop : opcodeOf w = opcodeOf w') (hrs : rsOf w = rsOf w')
    (hrt : rtOf w = rtOf w') (himm : imm16Of w = imm16Of w') : w = w' := by
  apply BitVec.eq_of_getLsbD_eq
  intro k hk
  by_cases h16 : k < 16
  · exact getLsbD_eq_of_field himm (by omega) (by omega)
  by_cases h21 : k < 21
  · exact getLsbD_eq_of_field hrt (by omega) (by omega)
  by_cases h26 : k < 26
  · exact getLsbD_eq_of_field hrs (by omega) (by omega)
  exact getLsbD_eq_of_field hop (by omega) (by omega)

/-- Bits 10:6 of the canonical register-form word are zero (R115, D12). -/
theorem getLsbD_registerWord_mid (rs rt rd : RegIdx) (f : BitVec 6) {k : Nat} (h1 : 6 ≤ k)
    (h2 : k < 11) : (registerWord rs rt rd f).getLsbD k = false := by
  have hmid : (registerWord rs rt rd f).extractLsb' 6 5 = (0 : Word).extractLsb' 6 5 := by
    have := f.isLt
    apply BitVec.eq_of_toNat_eq
    rw [BitVec.extractLsb'_toNat, registerWord_toNat, Nat.shiftRight_eq_div_pow,
      BitVec.extractLsb'_toNat]
    simp only [BitVec.ofNat_eq_ofNat, BitVec.toNat_ofNat, Nat.zero_mod, Nat.zero_shiftRight]
    omega
  rw [getLsbD_eq_of_field hmid h1 h2, BitVec.ofNat_eq_ofNat, BitVec.getLsbD_zero]

/-- Clearing bits 10:6 changes no other bit. -/
theorem getLsbD_clear_mid (w : Word) {k : Nat} (hk : k < 6 ∨ 11 ≤ k) :
    (w &&& 0xFFFFF83F).getLsbD k = w.getLsbD k := by
  by_cases h32 : k < 32
  · have hmask : ∀ i, i < 32 → i < 6 ∨ 11 ≤ i → (0xFFFFF83F : Word).getLsbD i = true := by decide
    rw [BitVec.getLsbD_and, hmask k h32 hk, Bool.and_true]
  · rw [BitVec.getLsbD_of_ge _ _ (by omega), BitVec.getLsbD_of_ge _ _ (by omega)]

/-- Writing a register-form word's fields back gives the word with bits 10:6 cleared. -/
theorem registerWord_fields {w : Word} (hop : opcodeOf w = 0) :
    registerWord (rsOf w) (rtOf w) (rdOf w) (functOf w) = w &&& 0xFFFFF83F := by
  have hsame : SameRegisterFields (registerWord (rsOf w) (rtOf w) (rdOf w) (functOf w)) w :=
    ⟨(opcodeOf_registerWord ..).trans hop.symm, rsOf_registerWord .., rtOf_registerWord ..,
      rdOf_registerWord .., functOf_registerWord ..⟩
  apply BitVec.eq_of_getLsbD_eq
  intro k _
  by_cases hk : k < 6 ∨ 11 ≤ k
  · rw [getLsbD_clear_mid w hk, sameRegisterFields_iff.1 hsame k hk]
  · have hmask : ∀ i, 6 ≤ i → i < 11 → (0xFFFFF83F : Word).getLsbD i = false := by
      intro i h1 h2
      interval_cases i <;> rfl
    rw [getLsbD_registerWord_mid _ _ _ _ (by omega) (by omega), BitVec.getLsbD_and,
      hmask k (by omega) (by omega), Bool.and_false]

/-- The low half of a sign extension is what was extended (00_scope.md R12). -/
@[simp] theorem extractLsb'_sext32 (v : BitVec 16) : (sext32 v).extractLsb' 0 16 = v := by
  have := v.isLt
  apply BitVec.eq_of_toNat_eq
  rw [BitVec.extractLsb'_toNat, Nat.shiftRight_zero, sext32_toNat]
  split <;> omega

/-- Writing a memory-form word's fields back gives the word. -/
theorem memoryWord_fields (w : Word) :
    memoryWord (opcodeOf w) (rsOf w) (rtOf w) (sext32 (imm16Of w)) = w :=
  eq_of_memoryFields (opcodeOf_memoryWord ..) (rsOf_memoryWord ..) (rtOf_memoryWord ..)
    (by rw [imm16Of_memoryWord, extractLsb'_sext32])

/-- The descriptor of a register form depends on those fields only. -/
theorem decode_eq_of_sameRegisterFields {w w' : Word} (hop : opcodeOf w = 0)
    (h : SameRegisterFields w w') : decode w = decode w' := by
  obtain ⟨hop', hrs, hrt, hrd, hf⟩ := h
  rw [hop] at hop'
  simp only [decode, hop, ← hop', hrs, hrt, hrd, hf, if_true]

/-- The register kinds are the recognised words of opcode 0 (R100). -/
theorem registerKind_iff (w : Word) :
    ((decode w).kind = .add ∨ (decode w).kind = .sub ∨ (decode w).kind = .xor) ↔
      opcodeOf w = 0 ∧ decode w ≠ .unrecognized := by
  rcases decode_cases w with ⟨hop, -, hd⟩ | ⟨hop, -, hd⟩ | ⟨hop, -, hd⟩ | ⟨hop, hd⟩ | ⟨hop, hd⟩ |
    ⟨hop, -, -, hd⟩ <;>
    simp [hd, hop, Instr.kind]

/-- Encoding what a recognised word decodes to gives the word, bits 10:6 of the register form cleared
(R115, D12). -/
theorem encode_decode {w : Word} (h : decode w ≠ .unrecognized) :
    encode (decode w) = if opcodeOf w = 0 then w &&& 0xFFFFF83F else w := by
  rcases decode_cases w with ⟨hop, hf, hd⟩ | ⟨hop, hf, hd⟩ | ⟨hop, hf, hd⟩ | ⟨hop, hd⟩ | ⟨hop, hd⟩ |
    ⟨-, -, -, hd⟩
  · rw [hd, encode, if_pos hop, ← registerWord_fields hop, hf]
  · rw [hd, encode, if_pos hop, ← registerWord_fields hop, hf]
  · rw [hd, encode, if_pos hop, ← registerWord_fields hop, hf]
  · rw [hd, encode, hop, if_neg (by decide), ← hop, memoryWord_fields]
  · rw [hd, encode, hop, if_neg (by decide), ← hop, memoryWord_fields]
  · exact absurd hd h

theorem kind_eq_unrecognized_iff {i : Instr} : i.kind = .unrecognized ↔ i = .unrecognized := by
  cases i <;> simp [Instr.kind]

/-- Settles O6: the fields of an encoded word are the operands, and a well-formed immediate is the sign
extension of the half that is encoded. -/
theorem decodeEncodeRoundTrip : Obligations.DecodeEncodeRoundTrip := by
  intro i hwf
  cases i with
  | add rs rt rd => simp [encode, decode]
  | sub rs rt rd => simp [encode, decode]
  | xor rs rt rd => simp [encode, decode]
  | lw rs rt imm => simp [encode, decode, sext32_low_of_ok hwf]
  | sw rs rt imm => simp [encode, decode, sext32_low_of_ok hwf]
  | unrecognized => rfl

/-- Settles O4: what is left of the fields, `rd`, is an operand that no register form uses. -/
theorem registerFormIgnoresBits15To6 : Obligations.RegisterFormIgnoresBits15To6 := by
  intro w w' hw hbits
  have hop : opcodeOf w = 0 := (opcodeOf_eq_iff (n := 0) (by decide)).2 hw
  have hop' : opcodeOf w = opcodeOf w' := field_eq_of_getLsbD fun k _ _ => hbits k (by omega)
  have hrs : rsOf w = rsOf w' := field_eq_of_getLsbD fun k _ _ => hbits k (by omega)
  have hrt : rtOf w = rtOf w' := field_eq_of_getLsbD fun k _ _ => hbits k (by omega)
  have hf : functOf w = functOf w' := field_eq_of_getLsbD fun k _ _ => hbits k (by omega)
  rw [decode, decode, ← hop', ← hrs, ← hrt, ← hf, if_pos hop, if_pos hop]
  split_ifs <;> exact ⟨rfl, fun _ => rfl⟩

/-- Settles O7. -/
theorem encodeDecodeIsCanonical : Obligations.EncodeDecodeIsCanonical := by
  intro w hkind
  have hop : opcodeOf w = 0 ↔ w.toNat / 2 ^ 26 = 0 := opcodeOf_eq_iff (n := 0) (by decide)
  rw [encode_decode (mt kind_eq_unrecognized_iff.2 hkind)]
  simp only [hop]

/-- Settles O5: equal descriptors have equal encodings, and an encoding is the word up to bits 10:6 of
the register form. -/
theorem sameDescriptorExactlyWhen : Obligations.SameDescriptorExactlyWhen := by
  intro w w'
  constructor
  · intro h
    by_cases hrec : decode w = .unrecognized
    · exact .inr (.inl ⟨hrec, h ▸ hrec⟩)
    have henc := congrArg encode h
    rw [encode_decode hrec, encode_decode (h ▸ hrec)] at henc
    have hop : opcodeOf w = 0 ↔ opcodeOf w' = 0 := by
      have hkind := registerKind_iff w'
      rw [← h, registerKind_iff] at hkind
      simpa only [ne_eq, hrec, not_false_eq_true, and_true] using hkind
    by_cases h0 : opcodeOf w = 0
    · rw [if_pos h0, if_pos (hop.1 h0)] at henc
      refine .inr (.inr ⟨(registerKind_iff w).2 ⟨h0, hrec⟩, fun k hk => ?_⟩)
      rw [← getLsbD_clear_mid w hk, henc, getLsbD_clear_mid w' hk]
    · rw [if_neg h0, if_neg (mt hop.2 h0)] at henc
      exact .inl henc
  · rintro (rfl | ⟨hw, hw'⟩ | ⟨hkind, hbits⟩)
    · rfl
    · rw [hw, hw']
    · obtain ⟨hop, -⟩ := (registerKind_iff w).1 hkind
      exact decode_eq_of_sameRegisterFields hop (sameRegisterFields_iff.2 hbits)

/-- Settles O10: four bytes make one word, and the decoder asks for four. -/
theorem instructionsAreFourLittleEndianBytes : Obligations.InstructionsAreFourLittleEndianBytes := by
  refine ⟨fun b0 b1 b2 b3 rest => ⟨wordOf b0 b1 b2 b3, wordOf_toNat b0 b1 b2 b3, rfl⟩, fun l hl => ?_⟩
  match l, hl with
  | [], _ => rfl
  | [_], _ => rfl
  | [_, _], _ => rfl
  | [_, _, _], _ => rfl
  | _ :: _ :: _ :: _ :: _, hl => exact absurd hl (by simp)

/-- Settles O1, by computation on the listed words. -/
theorem specWordsDecodeAsListed : Obligations.SpecWordsDecodeAsListed := by
  unfold Obligations.SpecWordsDecodeAsListed
  decide

/-- Settles O9: each row of the decoder takes its operands from the slices that the ports drive. -/
theorem portViewAgreesWithDescriptor : Obligations.PortViewAgreesWithDescriptor := by
  intro w
  refine ⟨rfl, ?_⟩
  rcases decode_cases w with ⟨-, -, hd⟩ | ⟨-, -, hd⟩ | ⟨-, -, hd⟩ | ⟨-, hd⟩ | ⟨-, hd⟩ |
    ⟨-, -, -, hd⟩ <;> rw [hd]
  case inr.inr.inr.inr.inr => trivial
  all_goals exact ⟨rfl, rfl, rfl⟩

end Sys2Proof
end

section
/-! PROOFS. The invariant of every constructed machine (10_state.md R29, R36; 20_memory.md R51): what keeps
it, that it holds at reset, and that every step keeps it. -/

namespace Sys2Proof.Machine

variable {s t : State}

/-- The invariant speaks of the memory and of the regions' extents only. -/
theorem inv_of_same_memory (h : Inv s) (hmem : t.mem = s.mem) (hparams : t.params = s.params) :
    Inv t := by
  rwa [Inv, MemoryInRegions, hmem, hparams]

/-- An admitted word write keeps the invariant. -/
theorem inv_writeWord (h : Inv s) {a : Word} (v : Word) (ha : admitted s.params a = true) :
    Inv { s with mem := writeWord s.mem a.toNat v } := by
  obtain ⟨hparams, hmem, hin⟩ := h
  exact ⟨hparams, writeWord_wf hmem _ _, writeWord_inRegions hin v ha⟩

/-- A MemWrite that answers a state keeps the invariant (R59). -/
theorem inv_of_memWrite {a v : Word} (h : Inv s) (hw : memWrite s a v = .ok t) : Inv t := by
  obtain ⟨ha, rfl⟩ := memWrite_eq_ok.1 hw
  exact inv_writeWord h v ha

/-- A write of a byte that exists keeps the invariant (R54 (d)). -/
theorem inv_writeByte (h : Inv s) {a : Nat} (v : Byte) (ha : byteExists s.params a = true) :
    Inv { s with mem := writeByte s.mem a v } := by
  obtain ⟨hparams, hmem, hin⟩ := h
  refine ⟨hparams, writeByte_wf hmem _ _, fun c hc => ?_⟩
  rcases mem_writeByte hc with rfl | hc
  · exact ha
  · exact hin c hc

/-- Reset memory holds no cell. -/
theorem inv_resetWith {p : Params} (hp : p.WellFormed) : Inv (State.resetWith p) :=
  ⟨hp, nil_wf, fun _ hc => absurd hc List.not_mem_nil⟩

theorem defaultParams_wellFormed : Config.defaultParams.WellFormed := by decide

/-- Settles O44. -/
theorem invHoldsAtReset : Obligations.InvHoldsAtReset :=
  ⟨inv_resetWith defaultParams_wellFormed, fun _ => inv_resetWith⟩

/-- Settles O45: a step writes a register, which the invariant does not speak of, or one admitted word. -/
theorem everyStepKeepsInv : Obligations.EveryStepKeepsInv := by
  intro s t hinv hstep
  rcases step_next_cases hstep with ⟨r, v, rfl⟩ | ⟨a, v, ha, rfl⟩
  · exact inv_of_same_memory hinv rfl rfl
  · exact inv_of_same_memory (inv_writeWord hinv v ha) rfl rfl

/-- Settles O42: every admitted word reads as unwritten memory does. -/
theorem resetLeavesZeroesAndPcAtBase : Obligations.ResetLeavesZeroesAndPcAtBase := by
  intro p hp
  refine ⟨if_pos hp, getReg_resetWith p, rfl, fun a ha => ?_, rfl⟩
  rw [memRead_ok ((admitted_iff p a).2 ha), resetWith_mem, readWord_nil]

end Sys2Proof.Machine
end

section
/-! PROOFS. The cycle (40_execution_cycle.md): what a step runs, that it always ends in a next state or an
error, and where it leaves the pc. -/

namespace Sys2Proof.Machine

variable {s t : State}

/-- A step runs what its fetch answered (R131, R134). -/
theorem step_of_fetch {w : Word} (h : fetch s = .ok w) : step s = exec (decode w) s := by
  rw [step, h]

/-- No step is refused (R139). -/
theorem step_not_refused (s : State) (r : Refusal) : step s ≠ .refused r := by
  cases hp : admitted s.params s.pc
  · rw [step_of_not_admitted hp]; nofun
  · rw [step_of_admitted hp]; exact exec_not_refused _ _ _

/-- The pc after a step (R137). -/
theorem step_pc (h : step s = .next t) : t.pc = s.pc + 4 := by
  rcases step_next_cases h with ⟨r, v, rfl⟩ | ⟨a, v, -, rfl⟩
  · rw [advancePc_pc, setReg_pc]
  · rw [advancePc_pc]

theorem pcAdvanced_iff : PcAdvanced s t ↔ t.pc = s.pc + 4 := by
  rw [PcAdvanced, ← advancePc_toNat, BitVec.toNat_inj, advancePc_pc]

/-- Settles O11: the fetched word is the one that the four bytes at pc make. -/
theorem stepRunsTheDecodedInstruction : Obligations.StepRunsTheDecodedInstruction := by
  refine fun s => ⟨fun i hin hdec => ?_, fun hout => step_of_not_admitted ((not_admitted_iff _ _).2 hout)⟩
  rw [decodeBytes, Except.ok.injEq, Prod.mk.injEq] at hdec
  obtain ⟨rfl, -⟩ := hdec
  exact step_of_admitted ((admitted_iff _ _).2 hin)

/-- Settles O12: the placed word is fetched, and placing it wrote no byte but its own four. -/
theorem placedInstructionRunsNext : Obligations.PlacedInstructionRunsNext := by
  intro s nbits w hp
  exact ⟨step_of_fetch (fetch_placeWord hp _), fun _ => rfl, rfl,
    fun _ hb => readByte_writeWord_outside _ _ hb⟩

/-- Settles O15: of a step's three outcomes a refusal is none of this machine's. -/
theorem everyCycleIsOkOrError : Obligations.EveryCycleIsOkOrError := by
  intro s
  cases hstep : step s with
  | next t => exact .inl ⟨t, rfl, cycle_of_step_next hstep⟩
  | fault e => exact .inr ⟨e, rfl, cycle_of_step_fault hstep⟩
  | refused r => exact absurd hstep (step_not_refused s r)

/-- Settles O16: InvalidRegister is none of the faults of a step. -/
theorem noStepRaisesInvalidRegister : Obligations.NoStepRaisesInvalidRegister := by
  intro s n hstep
  rcases (stepFaultsExactlyWhen s _).1 hstep with
    ⟨-, he⟩ | ⟨-, -, he⟩ | ⟨-, rs, rt, imm, -, -, he⟩ <;> cases he

/-- Settles O17. -/
theorem everySuccessfulStepAdvancesPc : Obligations.EverySuccessfulStepAdvancesPc :=
  fun _ _ hstep => pcAdvanced_iff.2 (step_pc hstep)

/-- The pc after one word and `4k` more bytes. -/
theorem pc_add_succ (a : Word) (k : Nat) :
    a + 4 + BitVec.ofNat 32 (4 * k) = a + BitVec.ofNat 32 (4 * (k + 1)) := by
  rw [Nat.mul_succ, BitVec.ofNat_add, BitVec.add_assoc, BitVec.add_comm 4, BitVec.ofNat_eq_ofNat]

/-- Settles O18, by induction on the number of steps. -/
theorem executionIsStraightLine : Obligations.ExecutionIsStraightLine := by
  intro k
  induction k with
  | zero =>
    intro s t h
    cases h
    simp
  | succ k ih =>
    intro s t h
    obtain ⟨u, hstep, hrest⟩ := core_run_succ h
    rw [ih u t hrest, step_pc hstep, pc_add_succ]

/-- Settles O46: the regions start at multiples of 4, and so is the advance, also where it wraps. -/
theorem pcStaysAligned : Obligations.PcStaysAligned := by
  refine ⟨fun p hp => ?_, fun s t hs hstep => ?_⟩
  · obtain ⟨hbase, -⟩ := hp
    exact hbase
  · have hpc := everySuccessfulStepAdvancesPc s t hstep
    rw [PcAdvanced] at hpc
    rw [PcAligned] at hs ⊢
    omega

end Sys2Proof.Machine
end

section
/-! PROOFS. ADD, SUB and XOR (41_arith_logic.md): each completes in every state with one register written
(R145, R146), and so all that differs between them is the value written. -/

namespace Sys2Proof.Machine

section
variable (rs rt rd : RegIdx) (s : State)

theorem exec_add_eq :
    exec (.add rs rt rd) s = .next (advancePc (setReg s rt (getReg s rs + getReg s rt))) := rfl

theorem exec_sub_eq :
    exec (.sub rs rt rd) s = .next (advancePc (setReg s rt (getReg s rs - getReg s rt))) := rfl

theorem exec_xor_eq :
    exec (.xor rs rt rd) s = .next (advancePc (setReg s rt (getReg s rs ^^^ getReg s rt))) := rfl

end

/-- The frame of a register write that commits with the pc advance (10_state.md R26). -/
theorem setReg_frame (s : State) (r : RegIdx) (v : Word) :
    RegsSameExcept r s (advancePc (setReg s r v)) ∧ PcAdvanced s (advancePc (setReg s r v)) ∧
      BytesSame s (advancePc (setReg s r v)) ∧ (advancePc (setReg s r v)).params = s.params :=
  ⟨fun _ hq => getReg_setReg_other s v hq, advancePc_toNat _, fun _ => rfl, rfl⟩

theorem getReg_advancePc_setReg (s : State) (r : RegIdx) (v : Word) :
    getReg (advancePc (setReg s r v)) r = v := by
  rw [getReg_advancePc, getReg_setReg_same]

/-- Writing the value a register holds changes no register. -/
theorem regsSame_setReg_self (s : State) (r : RegIdx) :
    RegsSame s (advancePc (setReg s r (getReg s r))) := by
  intro q
  by_cases hq : q = r
  · rw [hq, getReg_advancePc_setReg]
  · rw [getReg_advancePc, getReg_setReg_other s _ hq]

/-- Writing a register twice, the second time with the value it had, restores every register. -/
theorem regsSame_setReg_restored (s : State) (r : RegIdx) (v : Word) :
    RegsSame s (advancePc (setReg (advancePc (setReg s r v)) r (getReg s r))) := by
  intro q
  by_cases hq : q = r
  · rw [hq, getReg_advancePc_setReg]
  · rw [getReg_advancePc, getReg_setReg_other _ _ hq, getReg_advancePc, getReg_setReg_other s _ hq]

/-- A difference of words as a number (00_scope.md R12, 41_arith_logic.md R155). -/
theorem toNat_sub_int (a b : Word) :
    ((a - b).toNat : Int) = ((a.toNat : Int) - (b.toNat : Int)) % 2 ^ 32 := by
  have := b.isLt
  rw [BitVec.toNat_sub]
  omega

/-- Settles O20. -/
theorem addWritesTheSum : Obligations.AddWritesTheSum := by
  refine ⟨fun rs rt rd s => ⟨_, exec_add_eq rs rt rd s, ?_, setReg_frame s rt _⟩, fun w hw => ?_⟩
  · rw [getReg_advancePc_setReg, BitVec.toNat_add]
  · obtain ⟨hadd, -⟩ := decodeFollowsTheMasks w
    exact ⟨_, hadd.1 hw⟩

/-- Settles O21. -/
theorem subWritesTheDifference : Obligations.SubWritesTheDifference := by
  refine ⟨fun rs rt rd s => ⟨_, exec_sub_eq rs rt rd s, ?_, setReg_frame s rt _⟩, fun w hw => ?_⟩
  · rw [getReg_advancePc_setReg, toNat_sub_int]
  · obtain ⟨-, hsub, -⟩ := decodeFollowsTheMasks w
    exact ⟨_, hsub.1 hw⟩

/-- Settles O22. -/
theorem xorWritesTheExclusiveOr : Obligations.XorWritesTheExclusiveOr := by
  refine ⟨fun rs rt rd s => ⟨_, exec_xor_eq rs rt rd s, fun k _ => ?_, setReg_frame s rt _⟩,
    fun w hw => ?_⟩
  · rw [getReg_advancePc_setReg, BitVec.getLsbD_xor]
  · obtain ⟨-, -, hxor, -⟩ := decodeFollowsTheMasks w
    exact ⟨_, hxor.1 hw⟩

/-- What ADD, SUB and XOR answer is one write of `x[rt]` and the pc advance. -/
theorem exec_registerForm_next {i : Instr} {rs rt rd : RegIdx} {s t : State}
    (hi : i = .add rs rt rd ∨ i = .sub rs rt rd ∨ i = .xor rs rt rd) (h : exec i s = .next t) :
    ∃ v, t = advancePc (setReg s rt v) := by
  rcases hi with rfl | rfl | rfl <;> exact ⟨_, (Host.Outcome.next.inj h).symm⟩

/-- Settles O23. -/
theorem registerFormFrame : Obligations.RegisterFormFrame := by
  intro i rs rt rd s t hi h
  obtain ⟨v, rfl⟩ := exec_registerForm_next hi h
  exact setReg_frame s rt v

/-- Settles O24: the signed reading of a wrapping sum and difference is the library's. -/
theorem addAndSubWrapForBothReadings : Obligations.AddAndSubWrapForBothReadings := by
  refine fun rs rt rd s => ⟨⟨_, exec_add_eq rs rt rd s, ?_⟩, ⟨_, exec_sub_eq rs rt rd s, ?_⟩⟩
  · rw [getReg_advancePc_setReg, BitVec.toInt_add]
  · rw [getReg_advancePc_setReg, BitVec.toInt_sub]

/-- Settles O25: the value written in each corner, by the algebra of words. -/
theorem registerFormCorners : Obligations.RegisterFormCorners := by
  intro r q rd s
  refine ⟨⟨_, exec_add_eq r r rd s, ?_⟩, ⟨_, exec_sub_eq r r rd s, ?_⟩, ⟨_, exec_xor_eq r r rd s, ?_⟩,
    fun hq => ⟨⟨_, exec_add_eq q r rd s, ?_⟩, ⟨_, exec_sub_eq q r rd s, ?_⟩,
      ⟨_, exec_xor_eq q r rd s, ?_⟩, ⟨_, exec_sub_eq r q rd s, ?_⟩⟩, ⟨_, exec_add_eq r 0 rd s, ?_⟩⟩
  · rw [getReg_advancePc_setReg, BitVec.toNat_add, Nat.two_mul]
  · rw [getReg_advancePc_setReg]
    exact BitVec.sub_self _
  · rw [getReg_advancePc_setReg]
    exact BitVec.xor_self
  · rw [hq, BitVec.ofNat_eq_ofNat, BitVec.zero_add]
    exact regsSame_setReg_self s r
  · rw [getReg_advancePc_setReg, hq, BitVec.ofNat_eq_ofNat, BitVec.zero_sub, BitVec.toNat_neg]
  · rw [hq, BitVec.ofNat_eq_ofNat, BitVec.zero_xor]
    exact regsSame_setReg_self s r
  · rw [getReg_advancePc_setReg, hq, BitVec.ofNat_eq_ofNat, BitVec.sub_zero]
  · rw [getReg_advancePc_setReg, BitVec.toNat_add]

/-- Settles O26: the second XOR meets the same `x[rs]`, because `rs` is not the register written, and
`a ^ (a ^ b) = b`. -/
theorem xorTwiceRestores : Obligations.XorTwiceRestores := by
  intro rs rt rd rd' s hne
  refine ⟨_, _, exec_xor_eq rs rt rd s, exec_xor_eq rs rt rd' _, ?_⟩
  rw [getReg_advancePc_setReg, getReg_advancePc, getReg_setReg_other s _ hne, ← BitVec.xor_assoc,
    BitVec.xor_self, BitVec.zero_xor]
  exact regsSame_setReg_restored s rt _

/-- Settles O27: each result is written out of the two sources. -/
theorem resultDependsOnTheSourcesOnly : Obligations.ResultDependsOnTheSourcesOnly := by
  intro rs rt rd rd' s s' hrs hrt
  refine ⟨⟨_, _, exec_add_eq rs rt rd s, exec_add_eq rs rt rd' s', ?_⟩,
    ⟨_, _, exec_sub_eq rs rt rd s, exec_sub_eq rs rt rd' s', ?_⟩,
    ⟨_, _, exec_xor_eq rs rt rd s, exec_xor_eq rs rt rd' s', ?_⟩⟩ <;>
    rw [getReg_advancePc_setReg, getReg_advancePc_setReg, hrs, hrt]

end Sys2Proof.Machine
end

section
/-! PROOFS. The effective address (42_load_store.md R171), LW's value, a load and a fetch after a store
(R180; 20_memory.md R71), and the one write of a step (40_execution_cycle.md R135). -/

namespace Sys2Proof.Machine

variable {rs rt : RegIdx} {imm : Word} {s t : State}

/-- A sum of words as a number, the second one read as signed (00_scope.md R12). -/
theorem toNat_add_toInt (a b : Word) :
    ((a + b).toNat : Int) = ((a.toNat : Int) + b.toInt) % 2 ^ 32 := by
  rw [BitVec.toNat_add, BitVec.toInt_eq_toNat_cond]
  split <;> omega

/-- Settles O28: sign extension keeps the displacement's signed value. -/
theorem effectiveAddressIsBasePlusDisplacement :
    Obligations.EffectiveAddressIsBasePlusDisplacement := by
  intro s rs imm16
  rw [effectiveAddress, toNat_add_toInt, sext32_toInt]

/-- Settles O29: LW completes where its MemRead does, and its words are its row of the opcode table. -/
theorem lwLoadsTheWord : Obligations.LwLoadsTheWord := by
  refine ⟨fun rs rt imm s hin => ?_, fun w hw => ?_⟩
  · refine ⟨_, exec_lw_eq_next.2 ⟨hin, rfl⟩, ?_, setReg_frame s rt _⟩
    rw [getReg_advancePc_setReg, readWord_toNat]
  · obtain ⟨-, -, -, hlw, -⟩ := decodeFollowsTheMasks w
    exact hlw.1 hw

/-- A read does not look at the pc. -/
theorem memRead_advancePc (s : State) (a : Word) : memRead (advancePc s) a = memRead s a := rfl

/-- After an SW that completed, the word at its address can be read, and it is the stored one. -/
theorem memRead_of_exec_sw (h : exec (.sw rs rt imm) s = .next t) :
    memRead t (effectiveAddress s rs imm) = .ok (getReg s rt) := by
  obtain ⟨u, hu, rfl⟩ := exec_sw_eq_next.1 h
  rw [memRead_advancePc, memRead_of_memWrite hu]

/-- Settles O34: the load has the store's address, and there still finds the stored bytes. -/
theorem storeThenLoadRoundTrips : Obligations.StoreThenLoadRoundTrips := by
  intro ra rb rc imm s t t' hsw hbase hparams hbytes
  obtain ⟨hregs, -, -, -⟩ := exec_sw_frame hsw
  obtain ⟨ha, hword⟩ := memRead_eq_ok.1 (memRead_of_exec_sw hsw)
  have hea : effectiveAddress t' rb imm = effectiveAddress s rb imm := by
    rw [effectiveAddress, effectiveAddress, hbase, hregs]
  have hloaded : readWord t'.mem (effectiveAddress s rb imm).toNat = getReg s ra := by
    rw [hword]
    refine readWord_congr fun b hlo hhi => ?_
    rw [← Nat.add_sub_cancel' hlo]
    exact hbytes _ (by omega)
  have hin : WordInRegion t'.params (effectiveAddress t' rb imm).toNat := by
    rw [hea, hparams]
    exact (admitted_iff _ _).1 ha
  refine ⟨hregs rb, _, exec_lw_eq_next.2 ⟨hin, rfl⟩, ?_, fun hne => ?_⟩
  · rw [getReg_advancePc_setReg, hea, hloaded]
  · rw [getReg_advancePc, getReg_setReg_other _ _ hne.symm, hbase, hregs]

/-- Settles O35: the next fetch is a read at the store's address. -/
theorem storeIsSeenByTheNextFetch : Obligations.StoreIsSeenByTheNextFetch := by
  intro rs rt imm s t hsw hea
  obtain ⟨-, -, hpc, -⟩ := exec_sw_frame hsw
  have hfetch := memRead_of_exec_sw hsw
  rw [hea, ← pcAdvanced_iff.1 hpc] at hfetch
  exact step_of_fetch hfetch

/-- A step that answers a next state ran the word at pc. -/
theorem exec_of_step_next (h : step s = .next t) :
    exec (decode (readWord s.mem s.pc.toNat)) s = .next t := by
  cases hp : admitted s.params s.pc
  · rw [step_of_not_admitted hp] at h; cases h
  · rwa [step_of_admitted hp] at h

/-- UNRECOGNIZED has no next state, not even where nothing can be fetched (43_unrecognized.md R190). -/
theorem exec_unrecognized_ne_next : exec .unrecognized s ≠ .next t := by
  rw [exec, execUnrecognized_eq]
  split <;> nofun

/-- Settles O19, by the frame of each kind. -/
theorem oneArchitecturalWritePerStep : Obligations.OneArchitecturalWritePerStep := by
  intro s t hstep
  have h := exec_of_step_next hstep
  cases hd : decode (readWord s.mem s.pc.toNat) with
  | add rs rt rd =>
    obtain ⟨hregs, -, hbytes, -⟩ := registerFormFrame _ rs rt rd s t (.inl rfl) (hd ▸ h)
    exact ⟨hregs, hbytes⟩
  | sub rs rt rd =>
    obtain ⟨hregs, -, hbytes, -⟩ := registerFormFrame _ rs rt rd s t (.inr (.inl rfl)) (hd ▸ h)
    exact ⟨hregs, hbytes⟩
  | xor rs rt rd =>
    obtain ⟨hregs, -, hbytes, -⟩ := registerFormFrame _ rs rt rd s t (.inr (.inr rfl)) (hd ▸ h)
    exact ⟨hregs, hbytes⟩
  | lw rs rt imm =>
    obtain ⟨hregs, hbytes, -, -⟩ := exec_lw_frame (hd ▸ h)
    exact ⟨hregs, hbytes⟩
  | sw rs rt imm =>
    obtain ⟨hregs, hbytes, -, -⟩ := exec_sw_frame (hd ▸ h)
    exact ⟨hregs, hbytes⟩
  | unrecognized => exact absurd (hd ▸ h) exec_unrecognized_ne_next

/-- Settles O41: a region starts and ends at multiples of 4, so it contains an aligned word's last byte
with its first. -/
theorem admissionAtTheEdges : Obligations.AdmissionAtTheEdges := by
  intro p a hp
  refine ⟨fun halign => ?_, fun ⟨hlo, hhi⟩ => ?_, fun htop => ?_⟩
  · obtain ⟨hbase, hsize, -, -, -⟩ := hp
    rw [admitted_iff, byteExists_iff]
    simp only [WordInRegion, Config.dataBase, Config.dataSize]
    omega
  · exact (not_admitted_iff p a).2 (not_wordInRegion_at_end_of_data hp hlo hhi)
  · obtain ⟨-, -, -, hlimit, -⟩ := hp
    rw [not_admitted_iff]
    simp only [WordInRegion, Config.dataBase, Config.dataSize, Config.addressLimit] at hlimit ⊢
    omega

end Sys2Proof.Machine
end

section
/-! PROOFS. What the host may do between cycles (70_reset_and_hazards.md R232 to R241): its register, byte
and word accesses, the invariant they keep, and the load of a program that does not fit. -/

namespace Sys2Proof.Machine

variable {s t : State}

theorem hostGet_of_lt (s : State) {i : Nat} (h : i < 32) : hostGet s i = .ok (s.regs[i]'h) :=
  dif_pos h

theorem hostGet_of_not_lt (s : State) {i : Nat} (h : ¬ i < 32) :
    hostGet s i = .error (.invalidRegister i) := dif_neg h

/-- The host and the core read the same register file (10_state.md R23). -/
theorem hostGet_eq_getReg (s : State) {i : Nat} (h : i < 32) :
    hostGet s i = .ok (getReg s (BitVec.ofNat 5 i)) := by
  have hi : (BitVec.ofNat 5 i).toNat = i := by
    rw [BitVec.toNat_ofNat]
    exact Nat.mod_eq_of_lt h
  simp only [hostGet_of_lt s h, getReg, hi]

/-- Everything the host's register write can answer with a state (R23). -/
theorem hostSet_eq_ok {i : Nat} {v : Word} :
    hostSet s i v = .ok t ↔ ∃ h : i < 32, t = { s with regs := s.regs.set i v h } := by
  by_cases h : i < 32 <;> simp [hostSet, h, eq_comm]

/-- Settles O47: `set` replaces one entry of the vector that `get` reads. -/
theorem hostRegisterContract : Obligations.HostRegisterContract := by
  intro s i v
  refine ⟨fun h => ⟨hostGet_eq_getReg s h, _, hostSet_eq_ok.2 ⟨h, rfl⟩, ?_, fun j hj => ?_, rfl, rfl, rfl⟩,
    fun h => ⟨hostGet_of_not_lt s h, dif_neg h⟩⟩
  · rw [hostGet_of_lt _ h, Vector.getElem_set_self]
  · by_cases hj32 : j < 32
    · rw [hostGet_of_lt _ hj32, hostGet_of_lt _ hj32, Vector.getElem_set_ne _ _ hj.symm]
    · rw [hostGet_of_not_lt _ hj32, hostGet_of_not_lt _ hj32]

/-- The bytes of a word access in a region do not wrap around (20_memory.md R51, R57). -/
theorem toNat_add_of_wordInRegion {p : Params} (hp : p.WellFormed) {a : Word}
    (h : WordInRegion p a.toNat) {k : Nat} (hk : k < 4) :
    (a + BitVec.ofNat 32 k).toNat = a.toNat + k := by
  obtain ⟨-, -, -, hlimit, -⟩ := hp
  simp only [WordInRegion, Config.dataBase, Config.dataSize, Config.addressLimit] at h hlimit
  rw [BitVec.toNat_add, BitVec.toNat_ofNat]
  omega

/-- Settles O48: the host's byte reads go to the bytes that MemWrite wrote, which exist. -/
theorem hostSeesTheWrittenBytes : Obligations.HostSeesTheWrittenBytes := by
  intro s t a v hp hw
  obtain ⟨ha, -⟩ := memWrite_eq_ok.1 hw
  obtain ⟨-, -, -, hparams⟩ := memWrite_frame hw
  refine ⟨fun k hk => ?_, fun b hb => ?_⟩
  · have hbyte : byteOf v k = BitVec.ofNat 8 (v.toNat / 2 ^ (8 * k)) := by
      apply BitVec.eq_of_toNat_eq
      rw [byteOf_toNat, BitVec.toNat_ofNat]
    have hexists : byteExists t.params (a.toNat + k) = true := by
      rw [hparams]
      exact byteExists_of_admitted ha (by omega) (by omega)
    rw [hostReadByte, toNat_add_of_wordInRegion hp ((admitted_iff _ _).1 ha) hk, if_pos hexists,
      readByte_of_memWrite_inside hw hk, hbyte]
  · rw [hostReadByte, if_neg (Bool.eq_false_iff.1 hb)]

/-- Everything the host's byte write can answer with a state (R54 (d)). -/
theorem hostWriteByte_eq_ok {a : Word} {v : Byte} :
    hostWriteByte s a v = .ok t ↔
      byteExists s.params a.toNat = true ∧ t = { s with mem := writeByte s.mem a.toNat v } := by
  cases h : byteExists s.params a.toNat <;> simp [hostWriteByte, h, eq_comm]

/-- Loading words keeps the invariant, as each MemWrite does. -/
theorem inv_of_loadFrom {ws : List Word} {a : Nat} (h : Inv s) (hl : loadFrom s a ws = .ok t) :
    Inv t := by
  induction ws generalizing s a with
  | nil =>
    cases hl
    exact h
  | cons w ws ih =>
    obtain ⟨-, u, hu, hrest⟩ := loadFrom_cons_eq_ok.1 hl
    exact ih (inv_of_memWrite h hu) hrest

/-- The end marker is no part of the invariant. -/
theorem inv_withLast (h : Inv s) (a : Word) :
    Inv { s with params := { s.params with last := a } } := h

/-- Settles O49. -/
theorem hostActionsKeepInv : Obligations.HostActionsKeepInv := by
  intro s h
  refine ⟨fun i v t ht => ?_, fun a v t ht => inv_of_memWrite h ht, fun a v t ht => ?_,
    fun a => inv_of_same_memory h rfl rfl, fun ws t ht => ?_⟩
  · obtain ⟨-, rfl⟩ := hostSet_eq_ok.1 ht
    exact inv_of_same_memory h rfl rfl
  · obtain ⟨ha, rfl⟩ := hostWriteByte_eq_ok.1 ht
    exact inv_writeByte h v ha
  · obtain ⟨u, hu, rfl⟩ := load_eq_ok.1 ht
    exact inv_withLast (inv_of_loadFrom h hu) _

/-- No word access at the end of the instruction region lies in a region (20_memory.md R51, R57). -/
theorem not_wordInRegion_at_end_of_instr {p : Params} (hp : p.WellFormed) :
    ¬ WordInRegion p (p.instrBase.toNat + p.instrSize) := by
  obtain ⟨-, -, hsize, -, hapart⟩ := hp
  simp only [WordInRegion, Config.dataBase, Config.dataSize] at hapart ⊢
  omega

/-- Loading at the end of the instruction region fails there, whether a 32-bit address is left or not
(R235, log 18). -/
theorem loadFrom_at_end_of_instr (hp : s.params.WellFormed) (w : Word) (ws : List Word) :
    loadFrom s (s.params.instrBase.toNat + s.params.instrSize) (w :: ws) =
      .error (.outOfRange (BitVec.ofNat 32 (s.params.instrBase.toNat + s.params.instrSize))) := by
  rw [loadFrom]
  split
  · next ha =>
    have hout := not_wordInRegion_at_end_of_instr hp
    rw [← toNat_ofNat_of_lt_addressLimit ha, ← not_admitted_iff] at hout
    rw [memWrite_error w hout]
  · rfl

/-- Loading more words than the rest of the instruction region holds fails at its end (R235). -/
theorem loadFrom_past_end {ws : List Word} {a : Nat} (hp : s.params.WellFormed)
    (halign : a % 4 = 0) (hstart : s.params.instrBase.toNat ≤ a)
    (hend : a ≤ s.params.instrBase.toNat + s.params.instrSize)
    (hlong : s.params.instrBase.toNat + s.params.instrSize < a + 4 * ws.length) :
    loadFrom s a ws =
      .error (.outOfRange (BitVec.ofNat 32 (s.params.instrBase.toNat + s.params.instrSize))) := by
  induction ws generalizing s a with
  | nil =>
    rw [List.length_nil] at hlong
    omega
  | cons w ws ih =>
    rcases eq_or_lt_of_le hend with rfl | hlt
    · exact loadFrom_at_end_of_instr hp w ws
    have hroom : a + 4 ≤ s.params.instrBase.toNat + s.params.instrSize := by
      obtain ⟨hbase, hsize, -⟩ := hp
      omega
    have ha : a < Config.addressLimit := by
      obtain ⟨-, -, -, hlimit, -⟩ := hp
      omega
    have hin : WordInRegion s.params (BitVec.ofNat 32 a).toNat := by
      rw [toNat_ofNat_of_lt_addressLimit ha]
      exact .inr ⟨hstart, hroom⟩
    obtain ⟨u, hu⟩ := exists_memWrite_of_wordInRegion w hin
    obtain ⟨-, -, -, hparams⟩ := memWrite_frame hu
    rw [List.length_cons] at hlong
    have hrest := ih (s := u) (a := a + 4) (by rwa [hparams]) (by omega) (by rw [hparams]; omega)
      (by rwa [hparams]) (by rw [hparams]; omega)
    rw [loadFrom, if_pos ha, hu, ← hparams]
    exact hrest

/-- Settles O51. -/
theorem loadOfTooLongProgramIsOutOfRange : Obligations.LoadOfTooLongProgramIsOutOfRange := by
  intro s ws hp hlong
  have ⟨hbase, _⟩ := hp
  rw [load, loadFrom_past_end hp hbase le_rfl (by omega) (by omega)]

end Sys2Proof.Machine
end

section
/-! PROOFS. The host's loop (70_reset_and_hazards.md R237, R238). -/

namespace Sys2Proof.Machine

variable {s t : State} {rec : RunRecord}

/-- At `LAST` the run has ended, however many turns are left (D10). -/
theorem run_at_last (n : Nat) (rec : RunRecord) (h : s.pc = s.params.last) :
    run n s rec = .ended s rec := by
  cases n <;> rw [run, if_pos h]

/-- A turn whose step completes goes on from the next state. -/
theorem run_succ_of_next (n : Nat) (h : s.pc ≠ s.params.last) (hstep : step s = .next t) :
    run (n + 1) s rec = run n t rec := by
  rw [run, if_neg h, hstep]

/-- A turn whose step faults, by the host's policy (60_exceptions.md R213, R214). -/
theorem run_succ_of_fault (n : Nat) {e : Fault} (h : s.pc ≠ s.params.last)
    (hstep : step s = .fault e) :
    run (n + 1) s rec =
      if hostSkips s.params e then run n (advancePc s) (rec ++ [e]) else .faulted e s (rec ++ [e]) := by
  rw [run, if_neg h, hstep]

/-- The host skips an UnsupportedInstruction under the skip policy, and nothing else (R214). -/
theorem hostSkips_iff {p : Params} {e : Fault} :
    hostSkips p e = true ↔ p.skipUnsupported = true ∧ ∃ w, e = .unsupportedInstruction w := by
  cases e <;> simp [hostSkips]

/-- Settles O52. -/
theorem runFollowsTheHostLoop : Obligations.RunFollowsTheHostLoop := by
  intro n s rec
  refine ⟨run_at_last n rec, fun h => ⟨fun t hstep => run_succ_of_next n h hstep,
    fun w hstep hskip => ?_, fun e hstep hpolicy => ?_⟩⟩
  · rw [run_succ_of_fault n h hstep, if_pos (hostSkips_iff.2 ⟨hskip, w, rfl⟩)]
    rfl
  · rw [run_succ_of_fault n h hstep, if_neg]
    rw [hostSkips_iff]
    rintro ⟨hskip, w, rfl⟩
    rcases hpolicy with habort | hother
    · rw [hskip] at habort
      cases habort
    · exact hother w rfl

/-- Settles O53, by induction on the words left: a turn that does not end the run moves the pc by one
word, both after a step and after a skip, and leaves `LAST`. -/
theorem runTerminates : Obligations.RunTerminates := by
  intro n
  induction n with
  | zero =>
    intro s rec hpc
    exact .inl ⟨s, rec, run_at_last 0 rec (by simpa using hpc)⟩
  | succ n ih =>
    intro s rec hpc
    rw [← pc_add_succ] at hpc
    by_cases hlast : s.pc = s.params.last
    · exact .inl ⟨s, rec, run_at_last _ rec hlast⟩
    cases hstep : step s with
    | next t =>
      rw [run_succ_of_next n hlast hstep]
      exact ih t rec (by rw [step_pc hstep, step_keeps_params hstep, hpc])
    | fault e =>
      rw [run_succ_of_fault n hlast hstep]
      split
      · exact ih (advancePc s) _ hpc
      · exact .inr ⟨e, s, _, rfl⟩
    | refused r => exact absurd hstep (step_not_refused s r)

end Sys2Proof.Machine
end

section
/-! PROOFS. The datapath's ports (40_execution_cycle.md R140, R142): what they carry in a cycle that
succeeds, kind by kind. -/

namespace Sys2Proof.Machine

variable {s t : State} {w : Word}

/-- A word of SW's kind decodes to an SW with the word's own fields (30_encoding.md R105). -/
theorem decode_eq_sw_of_kind (hk : (decode w).kind = .sw) :
    decode w = .sw (rsOf w) (rtOf w) (sext32 (imm16Of w)) := by
  rcases decode_cases w with ⟨-, -, hd⟩ | ⟨-, -, hd⟩ | ⟨-, -, hd⟩ | ⟨-, hd⟩ | ⟨-, hd⟩ | ⟨-, -, -, hd⟩
  case inr.inr.inr.inr.inl => exact hd
  all_goals
    rw [hd] at hk
    cases hk

/-- Every kind but SW succeeds with what stands on the register write port (R140). -/
theorem exec_next_of_kind_ne_sw (hk : (decode w).kind ≠ .sw) (h : exec (decode w) s = .next t) :
    writeEnable w s = true ∧ t = advancePc (setReg s (rtOf w) (writeBackData w s)) := by
  rw [writeEnable, writeBackData]
  rcases decode_cases w with ⟨-, -, hd⟩ | ⟨-, -, hd⟩ | ⟨-, -, hd⟩ | ⟨-, hd⟩ | ⟨-, hd⟩ |
    ⟨-, -, -, hd⟩ <;>
    rw [hd] at hk h ⊢
  · exact ⟨rfl, (Host.Outcome.next.inj h).symm⟩
  · exact ⟨rfl, (Host.Outcome.next.inj h).symm⟩
  · exact ⟨rfl, (Host.Outcome.next.inj h).symm⟩
  · obtain ⟨hin, rfl⟩ := exec_lw_eq_next.1 h
    exact ⟨(admitted_iff _ _).2 hin, rfl⟩
  · exact absurd rfl hk
  · exact absurd h exec_unrecognized_ne_next

/-- SW succeeds with what stands on the data port, and enables no register write (R142). -/
theorem exec_next_of_kind_eq_sw (hk : (decode w).kind = .sw) (h : exec (decode w) s = .next t) :
    writeEnable w s = false ∧ (dataPort w s).write = true ∧
      t = advancePc (commitData (dataPort w s) s) := by
  rw [decode_eq_sw_of_kind hk] at h
  obtain ⟨u, hu, rfl⟩ := exec_sw_eq_next.1 h
  obtain ⟨hin, rfl⟩ := memWrite_eq_ok.1 hu
  have hwrite : (dataPort w s).write = true := by
    rw [dataPort, hk, hin]
    rfl
  refine ⟨by rw [writeEnable, hk], hwrite, ?_⟩
  rw [commitData, if_pos hwrite]
  rfl

/-- The data port writes for SW only (R142). -/
theorem dataPort_write_of_kind_ne_sw (hk : (decode w).kind ≠ .sw) (s : State) :
    (dataPort w s).write = false := by
  rw [dataPort, decide_eq_false hk, Bool.false_and]

/-- Settles O54: of the two ports one is enabled, and it carries the one write of the step. -/
theorem stepCommitsThePorts : Obligations.StepCommitsThePorts := by
  intro s t w hfetch hstep
  rw [step_of_fetch hfetch] at hstep
  by_cases hk : (decode w).kind = .sw
  · obtain ⟨hwe, hwrite, rfl⟩ := exec_next_of_kind_eq_sw hk hstep
    simp [commitReg, regPorts, hwe, hwrite, hk]
  · obtain ⟨hwe, rfl⟩ := exec_next_of_kind_ne_sw hk hstep
    simp [commitReg, commitData, regPorts, hwe, dataPort_write_of_kind_ne_sw hk, hk]

end Sys2Proof.Machine
end

section
/-! PROOFS. The refinement (40_execution_cycle.md R130): the byte list seen as two buffers, the decoder's
fields seen as numbers, and then a step seen as the spec's cycle. -/

namespace Sys2Proof.Machine

/-- One region of the memory as a zero-based buffer (20_memory.md R52): both buffers of `specView`. -/
def regionBuffer (m : Memory) (start size : Nat) : Nat → Nat := fun j =>
  if j < size then (readByte m (start + j)).toNat else 0

theorem specView_dmem (s : State) :
    (specView s).dmem = regionBuffer s.mem Config.dataBase Config.dataSize := rfl

theorem specView_imem (s : State) :
    (specView s).imem = regionBuffer s.mem s.params.instrBase.toNat s.params.instrSize := rfl

theorem specStore_inside (buffer : Nat → Nat) (i v : Nat) {k : Nat} (hk : k < 4) :
    specStore buffer i v (i + k) = v / 2 ^ (8 * k) % 2 ^ 8 := by
  interval_cases k <;> simp [specStore]

theorem specStore_outside (buffer : Nat → Nat) {i j : Nat} (v : Nat) (h : j < i ∨ i + 4 ≤ j) :
    specStore buffer i v j = buffer j := by
  rw [specStore, if_neg, if_neg, if_neg, if_neg] <;> omega

section
variable {m : Memory} {start size a : Nat}

/-- A buffer index is an address less the region's start. -/
theorem regionBuffer_sub_add {k : Nat} (h : specInside start size a) (hk : k < 4) :
    regionBuffer m start size (a - start + k) = (readByte m (a + k)).toNat := by
  obtain ⟨hlo, hhi⟩ := h
  rw [regionBuffer, if_pos (by omega), show start + (a - start + k) = a + k by omega]

/-- A word of a buffer is the word at the address (R58). -/
theorem specWord_regionBuffer (h : specInside start size a) :
    specWord (regionBuffer m start size) (a - start) = (readWord m a).toNat := by
  have hbyte0 : regionBuffer m start size (a - start) = (readByte m a).toNat :=
    regionBuffer_sub_add (k := 0) h (by decide)
  rw [readWord_toNat, specWord, littleEndian, hbyte0, regionBuffer_sub_add (k := 1) h (by decide),
    regionBuffer_sub_add (k := 2) h (by decide), regionBuffer_sub_add (k := 3) h (by decide)]

/-- A word stored in a buffer is the word stored at the address (R59). -/
theorem specStore_regionBuffer (h : specInside start size a) (v : Word) :
    specStore (regionBuffer m start size) (a - start) v.toNat =
      regionBuffer (writeWord m a v) start size := by
  funext j
  by_cases hin : a - start ≤ j ∧ j < a - start + 4
  · obtain ⟨k, rfl⟩ := Nat.exists_eq_add_of_le hin.1
    have hk : k < 4 := by omega
    rw [specStore_inside _ _ _ hk, regionBuffer_sub_add h hk, readByte_writeWord_inside _ _ _ hk,
      byteOf_toNat]
  · obtain ⟨hlo, -⟩ := h
    rw [specStore_outside _ _ (by omega), regionBuffer, regionBuffer,
      readByte_writeWord_outside _ _ (by omega)]

/-- A word stored outside a region leaves its buffer (R62 (b)). -/
theorem regionBuffer_writeWord_apart (h : start + size ≤ a ∨ a + 4 ≤ start) (v : Word) :
    regionBuffer (writeWord m a v) start size = regionBuffer m start size := by
  funext j
  simp only [regionBuffer]
  split
  · rw [readByte_writeWord_outside _ _ (by omega)]
  · rfl

end

section
variable (s : State)

/-- Register `r` in the spec's view. -/
theorem specView_x (r : RegIdx) : (specView s).x r.toNat = (getReg s r).toNat := by
  simp only [specView, if_pos r.isLt, BitVec.ofNat_toNat, BitVec.setWidth_eq]

theorem specView_pc : (specView s).pc = s.pc.toNat := rfl

theorem specView_x_of_not_lt {i : Nat} (h : ¬ i < 32) : (specView s).x i = 0 := if_neg h

/-- MemRead over the two buffers is MemRead (R53, R58). -/
theorem specRead_specView (a : Word) :
    specRead s.params (specView s) a.toNat =
      if admitted s.params a then some (readWord s.mem a.toNat).toNat else none := by
  rw [specRead, specView_dmem, specView_imem]
  by_cases hd : specInside Config.dataBase Config.dataSize a.toNat
  · rw [if_pos hd, specWord_regionBuffer hd, if_pos ((admitted_iff _ _).2 (.inl hd))]
  rw [if_neg hd]
  by_cases hi : specInside s.params.instrBase.toNat s.params.instrSize a.toNat
  · rw [if_pos hi, specWord_regionBuffer hi, if_pos ((admitted_iff _ _).2 (.inr hi))]
  · rw [if_neg hi, if_neg]
    rw [admitted_iff]
    exact not_or.2 ⟨hd, hi⟩

/-- MemWrite over the two buffers is MemWrite, because the regions are disjoint (R51, R59). -/
theorem specWrite_specView (hp : s.params.WellFormed) (a v : Word) :
    specWrite s.params (specView s) a.toNat v.toNat =
      if admitted s.params a then some (specView { s with mem := writeWord s.mem a.toNat v })
      else none := by
  obtain ⟨-, -, -, -, hapart⟩ := hp
  rw [specWrite, specView_dmem, specView_imem]
  by_cases hd : specInside Config.dataBase Config.dataSize a.toNat
  · have hinstr : s.params.instrBase.toNat + s.params.instrSize ≤ a.toNat ∨
        a.toNat + 4 ≤ s.params.instrBase.toNat := by omega
    rw [if_pos hd, if_pos ((admitted_iff _ _).2 (.inl hd)), specStore_regionBuffer hd,
      ← regionBuffer_writeWord_apart hinstr v]
    rfl
  rw [if_neg hd]
  by_cases hi : specInside s.params.instrBase.toNat s.params.instrSize a.toNat
  · have hdata : Config.dataBase + Config.dataSize ≤ a.toNat ∨ a.toNat + 4 ≤ Config.dataBase := by
      omega
    rw [if_pos hi, if_pos ((admitted_iff _ _).2 (.inr hi)), specStore_regionBuffer hi,
      ← regionBuffer_writeWord_apart hdata v]
    rfl
  · rw [if_neg hi, if_neg]
    rw [admitted_iff]
    exact not_or.2 ⟨hd, hi⟩

/-- Register `j` after a write of register `r`, in the spec's view (10_state.md R26). -/
theorem specView_x_setReg (r : RegIdx) (v : Word) (j : Nat) :
    (specView (advancePc (setReg s r v))).x j = if j = r.toNat then v.toNat else (specView s).x j := by
  by_cases hj : j < 32
  · obtain ⟨q, rfl⟩ : ∃ q : RegIdx, j = q.toNat :=
      ⟨BitVec.ofNat 5 j, by rw [BitVec.toNat_ofNat, Nat.mod_eq_of_lt hj]⟩
    rw [specView_x, specView_x, getReg_advancePc]
    split
    · next hq => rw [BitVec.toNat_inj.1 hq, getReg_setReg_same]
    · next hq => rw [getReg_setReg_other s v (mt BitVec.toNat_inj.2 hq)]
  · have hr : j ≠ r.toNat := by omega
    rw [if_neg hr, specView_x_of_not_lt _ hj, specView_x_of_not_lt _ hj]

/-- A register write that commits with the pc advance, in the spec's view (40_execution_cycle.md R136). -/
theorem specView_advancePc_setReg (r : RegIdx) (v : Word) :
    specView (advancePc (setReg s r v)) = specSetReg (specView s) r.toNat v.toNat := by
  have hx := funext (specView_x_setReg s r v)
  have hpc : (specView (advancePc (setReg s r v))).pc = (s.pc.toNat + 4) % 2 ^ 32 := advancePc_toNat _
  rw [specSetReg, ← hx]
  exact congrArg (fun pc => { specView (advancePc (setReg s r v)) with pc := pc }) hpc

/-- The pc advance, in the spec's view (R137). -/
theorem specView_advancePc :
    specView (advancePc s) = { specView s with pc := (s.pc.toNat + 4) % 2 ^ 32 } :=
  congrArg (fun pc => { specView s with pc := pc }) (advancePc_toNat s)

/-- The effective address in the spec's arithmetic (R171). -/
theorem specEffectiveAddress (rs : RegIdx) (v : BitVec 16) :
    ((getReg s rs).toNat + specSext v.toNat) % 2 ^ 32 = (effectiveAddress s rs (sext32 v)).toNat := by
  rw [effectiveAddress, BitVec.toNat_add, sext32_toNat, specSext]

end

/-- A difference of words in the spec's arithmetic (41_arith_logic.md R155). -/
theorem toNat_sub_spec (a b : Word) : (a - b).toNat = (a.toNat + (2 ^ 32 - b.toNat)) % 2 ^ 32 := by
  rw [BitVec.toNat_sub, Nat.add_comm]

/-- The opcode or the funct as a number (00_scope.md R11). -/
theorem field_toNat_eq_iff {f : BitVec 6} {n : Nat} (hn : n < 64) :
    f.toNat = n ↔ f = BitVec.ofNat 6 n := by
  rw [← BitVec.toNat_inj, BitVec.toNat_ofNat, Nat.mod_eq_of_lt hn]

/-- The spec's execution of a fetched word is `exec` of the decoded word: each row of the decoder passes
the spec's tests on the same two fields, and its result is the same in either arithmetic (R100, R134). -/
theorem specOutcome_exec {s : State} {w : Word} (hp : s.params.WellFormed) (hfetch : fetch s = .ok w) :
    specOutcome (exec (decode w) s) = some (specExecute s.params (specView s) w.toNat) := by
  simp (disch := decide) only [specExecute, ← opcodeOf_toNat, ← rsOf_toNat, ← rtOf_toNat,
    ← functOf_toNat, ← imm16Of_toNat, field_toNat_eq_iff, specView_x, specView_pc, specEffectiveAddress,
    specRead_specView, specWrite_specView s hp, BitVec.ofNat_toNat, BitVec.setWidth_eq]
  rcases decode_cases w with ⟨hop, hf, hd⟩ | ⟨hop, hf, hd⟩ | ⟨hop, hf, hd⟩ | ⟨hop, hd⟩ | ⟨hop, hd⟩ |
    ⟨hnotRegister, hnotLw, hnotSw, hd⟩ <;>
    rw [hd]
  · rw [exec_add_eq, specOutcome, specView_advancePc_setReg, BitVec.toNat_add]
    simp [hop, hf]
  · rw [exec_sub_eq, specOutcome, specView_advancePc_setReg, toNat_sub_spec]
    simp [hop, hf]
  · rw [exec_xor_eq, specOutcome, specView_advancePc_setReg, BitVec.toNat_xor]
    simp [hop, hf]
  · rw [exec, execLw_eq]
    split
    · simp [hop, specOutcome, specView_advancePc_setReg]
    · simp [hop, specOutcome]
  · rw [exec, execSw_eq]
    split
    · simp [hop, specOutcome, specView_advancePc]
    · simp [hop, specOutcome]
  · obtain ⟨hin, hw⟩ := fetch_eq_ok.1 hfetch
    simp only [ne_eq, imp_and, ← not_and, BitVec.ofNat_eq_ofNat] at hnotRegister hnotLw hnotSw
    obtain ⟨hnotAdd, hnotSub, hnotXor⟩ := hnotRegister
    rw [exec_unrecognized_of_wordInRegion ((admitted_iff _ _).1 hin), ← hw, if_neg hnotAdd,
      if_neg hnotSub, if_neg hnotXor, if_neg hnotLw, if_neg hnotSw, specOutcome]

/-- Settles O55: the spec's fetch is the model's, and so is what it executes. -/
theorem stepRefinesTheTwoBufferCycle : Obligations.StepRefinesTheTwoBufferCycle := by
  intro s hp
  rw [specCycle, specView_pc, specRead_specView]
  cases ha : admitted s.params s.pc
  · rw [step_of_not_admitted ha]
    simp [specOutcome]
  · rw [step_of_admitted ha]
    exact specOutcome_exec hp (fetch_eq_ok.2 ⟨ha, rfl⟩)

end Sys2Proof.Machine
end
